-- ==== Sys2Proof/Word.lean ====
section
/-! DEFINITION. What a cell, an address and an operand of an instruction are (00_scope.md R5, R6; 30_encoding.md R50 to R55).
A VALUE, the content of a cell, of a queue entry or of `rb`, is an exact `Int` (R5, R6). An ADDRESS is a `Nat`, with no
upper bound (R5, R12, R38). The two types are used under their own names, so that arithmetic lemmas and `omega` apply. -/

namespace Sys2Proof

/-- The three addressing modes, digits 0, 1 and 2 of an instruction word (R53). -/
inductive Mode
  | position
  | immediate
  | relative
deriving DecidableEq, Repr

/-- A read parameter: its mode and its raw operand word (R54, R55). Written `[n]`, `#n`, `[rb+n]` in R60. -/
inductive Operand
  | position (n : Int)
  | immediate (n : Int)
  | relative (n : Int)
deriving DecidableEq, Repr

/-- A write parameter: it may be Position or Relative only, so an Immediate destination cannot be written down (R54). -/
inductive Target
  | position (n : Int)
  | relative (n : Int)
deriving DecidableEq, Repr

/-- The mode of a read parameter. -/
def Operand.mode : Operand → Mode
  | .position _ => .position
  | .immediate _ => .immediate
  | .relative _ => .relative

/-- The raw operand word of a read parameter. -/
def Operand.word : Operand → Int
  | .position n => n
  | .immediate n => n
  | .relative n => n

/-- The mode of a write parameter. -/
def Target.mode : Target → Mode
  | .position _ => .position
  | .relative _ => .relative

/-- The raw operand word of a write parameter. -/
def Target.word : Target → Int
  | .position n => n
  | .relative n => n

end Sys2Proof
end

