-- ==== Sys2Proof/Config.lean ====
section
/-! DEFINITION. The one parameter of the hardware, VALUE_BITS (00_scope.md R5). There is no free value: R145 says the core draws none. -/

namespace Sys2Proof

/-- `fits(v)` of R7: with `none` (the spec's `inf`) every integer fits, with `some n` the n-bit two's complement range. -/
def fits : Option Nat → Int → Bool
  | none, _ => true
  | some n, v => decide (-(2 : Int) ^ (n - 1) ≤ v) && decide (v < (2 : Int) ^ (n - 1))

/-- The widths R5 allows: `inf`, or a finite width of at least 64. -/
def Config.legalWidth : Option Nat → Bool
  | none => true
  | some n => decide (64 ≤ n)

/-- VALUE_BITS of this hardware: `inf` (R5, "value for this hardware"). -/
def Config.valueBits : Option Nat := none

end Sys2Proof
end

