-- ==== Sys2Proof/Machine/State.lean ====
section
/-! DEFINITION. The architectural state of the core: exactly the eight items of 10_state.md R10, and its value after reset (R22). -/

namespace Sys2Proof.Machine

/-- One cell of memory at an address. The unit of memory is a whole value, not a byte (20_memory.md R31, R32; log entry 2). -/
abbrev Cell := Nat × Int

/-- The memory `M`, a total function from addresses to values with default 0 (R20), held as the list of its
non-zero cells. `Memory.wf` says the canonical form. -/
abbrev Memory := List Cell

/-- The run state (R15). -/
inductive RunState
  /-- Eligible to execute the instruction at `pc`. -/
  | running
  /-- The last instruction attempted was an IN that found `inq` empty. -/
  | paused
  /-- An HLT executed; final. -/
  | halted
  /-- A fault was raised; final. -/
  | faulted
deriving DecidableEq, Repr

/-- The fault causes (R16, 60_exceptions.md R170). -/
inductive FaultCause
  /-- Code 0: no fault has been raised. -/
  | noFault
  /-- Code 1: negative word or unknown opcode. -/
  | invalidOpcode
  /-- Code 2: mode digit 3 to 9, or a word of 100000 or more. -/
  | invalidMode
  /-- Code 3: a write parameter in Immediate mode. -/
  | immediateWriteTarget
  /-- Code 4: negative effective address, or negative target of a taken jump. -/
  | negativeAddress
  /-- Code 5: a result that does not fit a finite VALUE_BITS. -/
  | valueOverflow
deriving DecidableEq, Repr

/-- The codes of R16. -/
def FaultCause.code : FaultCause → Nat
  | .noFault => 0
  | .invalidOpcode => 1
  | .invalidMode => 2
  | .immediateWriteTarget => 3
  | .negativeAddress => 4
  | .valueOverflow => 5

/-- A reason for which the MODEL stops where the spec gives no next state. The spec gives every step a next state
(40_execution_cycle.md R72), its own faults included, so there is no such reason and this type has no constructor
(log entry 3). -/
inductive Fault
deriving DecidableEq, Repr

/-- What the model declines. -/
inductive Refusal
  /-- Raised by no one: every instruction has its meaning. It is the host's name for an instruction without one. Safe. -/
  | notModelled (mnemonic : String)
  /-- Raised by the host ports of Machine/Commands.lean for an argument outside its domain, which 47_host_operations.md
  R142 says the model refuses. Never raised by `exec` or `step`. Safe. -/
  | hostArgument
deriving DecidableEq, Repr

/-- The whole state of one core (R10). -/
structure State where
  /-- The memory `M` (R20). -/
  mem : Memory
  /-- The program counter (R12). -/
  pc : Nat
  /-- The relative base (R13). -/
  rb : Int
  /-- The input queue, oldest first (R18). -/
  inq : List Int
  /-- The output queue, oldest first (R19). -/
  outq : List Int
  /-- The run state (R15). -/
  runState : RunState
  /-- The fault cause register (R16). -/
  faultCause : FaultCause
  /-- The fault info register (R17). -/
  faultInfo : Int
deriving DecidableEq, Repr

/-- The state right after RESET of the empty program: every item at the value of R22, no memory cell listed. -/
def State.reset : State where
  mem := []
  pc := 0
  rb := 0
  inq := []
  outq := []
  runState := .running
  faultCause := .noFault
  faultInfo := 0

/-- What executing an instruction, or one step, answers. -/
abbrev Result := Host.Outcome State Fault Refusal

end Sys2Proof.Machine
end

