-- ==== Sys2Proof/Machine/Ops.lean ====
section
/-! DEFINITION. The named operations over memory, registers and queues, and taking an exception (20_memory.md R34, R35; 40_execution_cycle.md R79, R80; 60_exceptions.md R174 to R177). -/

namespace Sys2Proof.Machine

/-- The canonical form: addresses strictly rising, and no cell holding 0, which is what an unlisted address reads as. -/
abbrev Memory.wf (m : Memory) : Prop :=
  m.Pairwise (fun c d => c.1 < d.1) ∧ ∀ c ∈ m, c.2 ≠ 0

/-- What an address nothing has written reads as: 0 (R34). -/
def unwritten : Int := 0

/-- `MemRead(a)` of R7 and R34. -/
def Memory.read : Memory → Nat → Int
  | [], _ => unwritten
  | (k, x) :: m, a => if k = a then x else Memory.read m a

/-- Takes an address out of the list. -/
def Memory.erase (m : Memory) (a : Nat) : Memory := m.filter fun c => c.1 ≠ a

/-- Puts a cell at its place in the rising list. -/
def Memory.insert : Memory → Nat → Int → Memory
  | [], a, v => [(a, v)]
  | (k, x) :: m, a, v =>
    if a < k then (a, v) :: (k, x) :: m
    else if a = k then (a, v) :: m
    else (k, x) :: Memory.insert m a v

/-- `MemWrite(a, v)` of R7 and R35. Writing 0 takes the cell out of the list, so that equal memories are equal lists. -/
def Memory.write (m : Memory) (a : Nat) (v : Int) : Memory :=
  if v = unwritten then m.erase a else m.insert a v

/-- The cells of a program laid out from address `a` on (70_reset_and_hazards.md R200). -/
def Memory.image : Nat → List Int → Memory
  | _, [] => []
  | a, v :: vs => if v = unwritten then Memory.image (a + 1) vs else (a, v) :: Memory.image (a + 1) vs

/-- A memory write as an update of the state. -/
def State.store (s : State) (a : Nat) (v : Int) : State := { s with mem := s.mem.write a v }

/-- `pc <- target`. -/
def State.goto (s : State) (a : Nat) : State := { s with pc := a }

/-- `pc <- pc + n`, the last action of a completed instruction (R80). -/
def State.advance (s : State) (n : Nat) : State := s.goto (s.pc + n)

/-- `rb <- v`. -/
def State.setRb (s : State) (v : Int) : State := { s with rb := v }

/-- Replaces the input queue. -/
def State.setInq (s : State) (q : List Int) : State := { s with inq := q }

/-- Replaces the output queue. -/
def State.setOutq (s : State) (q : List Int) : State := { s with outq := q }

/-- `run_state <- r`. -/
def State.setRunState (s : State) (r : RunState) : State := { s with runState := r }

/-- What `raise C(info)` carries (R7, R79). -/
structure Trap where
  /-- The cause `C`. -/
  cause : FaultCause
  /-- The value for `fault_info`. -/
  info : Int
deriving DecidableEq, Repr

/-- TAKING A FAULT (R79, R174): run state, cause and info are written, nothing else; the pc stays on the faulting
instruction. There is no return from a fault (R175): only RESET leaves `Faulted`. -/
def State.enterFault (s : State) (t : Trap) : State :=
  { s with runState := .faulted, faultCause := t.cause, faultInfo := t.info }

/-- PAUSE ENTRY (R176): the run state and nothing else. -/
def State.pause (s : State) : State := s.setRunState .paused

/-- PAUSE RETURN (R177), the first action of RUN and STEP on a core that is not stopped (R147, R148). -/
def State.resume (s : State) : State := s.setRunState .running

/-- `Halted` and `Faulted` are final (R15): no instruction executes in them. -/
def State.stopped (s : State) : Bool :=
  match s.runState with
  | .running => false
  | .paused => false
  | .halted => true
  | .faulted => true

/-- Ends an execute stage: the new state, or the fault taken on the state BEFORE the instruction, so that faults are precise (R79). -/
def settle (s : State) : Except Trap State → Result
  | .ok t => .next t
  | .error e => .next (s.enterFault e)

end Sys2Proof.Machine
end

