-- ==== Sys2Proof/Machine/Operands.lean ====
section
/-! DEFINITION. The operand forms of a parameter (40_execution_cycle.md R74, R76, R77, R78). -/

namespace Sys2Proof.Machine

/-- An exact sum used as an address: negative raises `NegativeAddress`, any other number is an address (R74, R77). -/
def effAddr (a : Int) : Except Trap Nat :=
  if a < 0 then .error ⟨.negativeAddress, a⟩ else .ok a.toNat

/-- `RdVal(k)`: the value of a read parameter (R76). -/
def rdVal (s : State) : Operand → Except Trap Int
  | .position n => (effAddr n).map s.mem.read
  | .immediate n => .ok n
  | .relative n => (effAddr (s.rb + n)).map s.mem.read

/-- `WrAddr(k)`: the destination address of a write parameter (R78). -/
def wrAddr (s : State) : Target → Except Trap Nat
  | .position n => effAddr n
  | .relative n => effAddr (s.rb + n)

end Sys2Proof.Machine
end

