-- ==== Sys2Proof/Machine/Flags.lean ====
section
/-! DEFINITION. The core has no flags (10_state.md R14). In their place stand the 0-or-1 results of the comparisons, the conditions of the jumps and the result range check. -/

namespace Sys2Proof.Machine

/-- The result of LT: 1 if `a < b`, signed, else 0 (44_compare.md R120). -/
def lessThan (a b : Int) : Int := if a < b then 1 else 0

/-- The result of EQ: 1 if `a = b` else 0 (R121). -/
def equalTo (a b : Int) : Int := if a = b then 1 else 0

/-- The condition of JT: any value but 0 (43_jumps.md R110). -/
def isNonzero (a : Int) : Bool := a != 0

/-- The condition of JF: exactly 0 (R111). -/
def isZero (a : Int) : Bool := a == 0

/-- The result range check of R84: the exact result, or `ValueOverflow` with it. With VALUE_BITS = inf it always passes. -/
def checkFits (width : Option Nat) (v : Int) : Except Trap Int :=
  if fits width v then .ok v else .error ⟨.valueOverflow, v⟩

end Sys2Proof.Machine
end

