-- ==== Sys2Proof/Machine/Arithmetic.lean ====
section
/-! DEFINITION. ADD and MUL (41_arithmetic.md R90, R91), and the shape they share with LT and EQ. -/

namespace Sys2Proof.Machine

/-- The execute stage of a 4-cell instruction (format F3): resolve both sources, then the destination, in this order
(R81); compute; write the one result; advance the pc (R45, R80). -/
def storeBinary (compute : Int → Int → Except Trap Int) (a b : Operand) (dest : Target) (s : State) : Result :=
  settle s do
    let x ← rdVal s a
    let y ← rdVal s b
    let d ← wrAddr s dest
    let v ← compute x y
    pure ((s.store d v).advance 4)

/-- ADD at a given VALUE_BITS (R90, R84). -/
def execAddAt (width : Option Nat) (a b : Operand) (dest : Target) (s : State) : Result :=
  storeBinary (fun x y => checkFits width (x + y)) a b dest s

/-- ADD: `dest := a + b` (R90). -/
def execAdd (a b : Operand) (dest : Target) (s : State) : Result :=
  execAddAt Config.valueBits a b dest s

/-- MUL at a given VALUE_BITS (R91, R84). -/
def execMulAt (width : Option Nat) (a b : Operand) (dest : Target) (s : State) : Result :=
  storeBinary (fun x y => checkFits width (x * y)) a b dest s

/-- MUL: `dest := a * b` (R91). -/
def execMul (a b : Operand) (dest : Target) (s : State) : Result :=
  execMulAt Config.valueBits a b dest s

end Sys2Proof.Machine
end

