-- ==== Sys2Proof/Machine/Compare.lean ====
section
/-! DEFINITION. LT and EQ (44_compare.md R120, R121). -/

namespace Sys2Proof.Machine

/-- LT: `dest := 1 if a < b else 0` (R120). -/
def execLt (a b : Operand) (dest : Target) (s : State) : Result :=
  storeBinary (fun x y => .ok (lessThan x y)) a b dest s

/-- EQ: `dest := 1 if a == b else 0` (R121). -/
def execEq (a b : Operand) (dest : Target) (s : State) : Result :=
  storeBinary (fun x y => .ok (equalTo x y)) a b dest s

end Sys2Proof.Machine
end

