-- ==== Sys2Proof/Machine/Halt.lean ====
section
/-! DEFINITION. HLT (46_halt.md R135). -/

namespace Sys2Proof.Machine

/-- HLT: `run_state <- Halted; pc <- pc + 1` (R135). The unused mode digits are ignored (R53). -/
def execHlt (_u1 _u2 _u3 : Mode) (s : State) : Result :=
  .next ((s.setRunState .halted).advance 1)

end Sys2Proof.Machine
end

