-- ==== Sys2Proof/Machine/InputOutput.lean ====
section
/-! DEFINITION. IN and OUT (42_io.md R100, R101). -/

namespace Sys2Proof.Machine

/-- IN: pop the oldest input and store it; with no input, pause. The destination is resolved first, so that a bad
destination faults also when `inq` is empty (R100, R81). The unused mode digits are ignored (R53). -/
def execIn (dest : Target) (_u2 _u3 : Mode) (s : State) : Result :=
  settle s do
    let d ← wrAddr s dest
    match s.inq with
    | [] => pure s.pause
    | v :: rest => pure (((s.setInq rest).store d v).advance 2)

/-- OUT: append the value at the back of `outq` (R101). The unused mode digits are ignored (R53). -/
def execOut (a : Operand) (_u2 _u3 : Mode) (s : State) : Result :=
  settle s do
    let x ← rdVal s a
    pure ((s.setOutq (s.outq ++ [x])).advance 2)

end Sys2Proof.Machine
end

