-- ==== Sys2Proof/Machine/Jumps.lean ====
section
/-! DEFINITION. JT and JF (43_jumps.md R110 to R113). -/

namespace Sys2Proof.Machine

/-- A conditional jump: both parameters are resolved whether or not the jump is taken (R81); a taken jump to a negative
target faults at the jump (R112). -/
def jumpWhen (condition : Int → Bool) (a target : Operand) (s : State) : Result :=
  settle s do
    let x ← rdVal s a
    let t ← rdVal s target
    if condition x then
      let p ← effAddr t
      pure (s.goto p)
    else
      pure (s.advance 3)

/-- JT: `if a != 0, pc := target` (R110). The unused mode digit is ignored (R53). -/
def execJt (a target : Operand) (_u3 : Mode) (s : State) : Result :=
  jumpWhen isNonzero a target s

/-- JF: `if a == 0, pc := target` (R111). The unused mode digit is ignored (R53). -/
def execJf (a target : Operand) (_u3 : Mode) (s : State) : Result :=
  jumpWhen isZero a target s

end Sys2Proof.Machine
end

