-- ==== Sys2Proof/Machine/RelativeBase.lean ====
section
/-! DEFINITION. ARB, the only writer of `rb` (45_relative_base.md R130). -/

namespace Sys2Proof.Machine

/-- ARB at a given VALUE_BITS (R130, R84): the operand is resolved with the OLD `rb`. -/
def execArbAt (width : Option Nat) (a : Operand) (s : State) : Result :=
  settle s do
    let x ← rdVal s a
    let v ← checkFits width (s.rb + x)
    pure ((s.setRb v).advance 2)

/-- ARB: `relative_base += a` (R130). The unused mode digits are ignored (R53). -/
def execArb (a : Operand) (_u2 _u3 : Mode) (s : State) : Result :=
  execArbAt Config.valueBits a s

end Sys2Proof.Machine
end

