-- ==== Sys2Proof/Syntax.lean ====
section
/-! DEFINITION. The instruction set: one constructor per row of opcode_table.json (30_encoding.md R56). -/

namespace Sys2Proof

/-- An instruction with its operands. The arguments `u1`, `u2`, `u3` are the mode digits at the positions of
parameters the opcode does not have: 0, 1 or 2 there is legal and ignored (R53); they are kept so that decoding
drops nothing (log entry 8). -/
inductive Instr
  /-- ADD, opcode 1 (R90). -/
  | add (a b : Operand) (dest : Target)
  /-- MUL, opcode 2 (R91). -/
  | mul (a b : Operand) (dest : Target)
  /-- IN, opcode 3 (R100). -/
  | inp (dest : Target) (u2 u3 : Mode)
  /-- OUT, opcode 4 (R101). -/
  | out (a : Operand) (u2 u3 : Mode)
  /-- JT, opcode 5 (R110). -/
  | jt (a target : Operand) (u3 : Mode)
  /-- JF, opcode 6 (R111). -/
  | jf (a target : Operand) (u3 : Mode)
  /-- LT, opcode 7 (R120). -/
  | lt (a b : Operand) (dest : Target)
  /-- EQ, opcode 8 (R121). -/
  | eq (a b : Operand) (dest : Target)
  /-- ARB, opcode 9 (R130). -/
  | arb (a : Operand) (u2 u3 : Mode)
  /-- HLT, opcode 99 (R135). -/
  | hlt (u1 u2 u3 : Mode)
deriving DecidableEq, Repr

/-- The operand words `o_1 .. o_n` of an instruction, in parameter order (R50). -/
def Instr.operandWords : Instr → List Int
  | .add a b d => [a.word, b.word, d.word]
  | .mul a b d => [a.word, b.word, d.word]
  | .inp d _ _ => [d.word]
  | .out a _ _ => [a.word]
  | .jt a t _ => [a.word, t.word]
  | .jf a t _ => [a.word, t.word]
  | .lt a b d => [a.word, b.word, d.word]
  | .eq a b d => [a.word, b.word, d.word]
  | .arb a _ _ => [a.word]
  | .hlt _ _ _ => []

end Sys2Proof
end

