-- ==== Sys2Proof/Machine/Dispatch.lean ====
section
/-! DEFINITION. The dispatch of 40_execution_cycle.md R83: one arm per instruction. -/

namespace Sys2Proof.Machine

/-- The execute stage of an instruction (R83). -/
def exec (i : Instr) (s : State) : Host.Outcome State Fault Refusal :=
  match i with
  | .add a b dest => Sys2Proof.Machine.execAdd a b dest s
  | .mul a b dest => Sys2Proof.Machine.execMul a b dest s
  | .inp dest u2 u3 => Sys2Proof.Machine.execIn dest u2 u3 s
  | .out a u2 u3 => Sys2Proof.Machine.execOut a u2 u3 s
  | .jt a target u3 => Sys2Proof.Machine.execJt a target u3 s
  | .jf a target u3 => Sys2Proof.Machine.execJf a target u3 s
  | .lt a b dest => Sys2Proof.Machine.execLt a b dest s
  | .eq a b dest => Sys2Proof.Machine.execEq a b dest s
  | .arb a u2 u3 => Sys2Proof.Machine.execArb a u2 u3 s
  | .hlt u1 u2 u3 => Sys2Proof.Machine.execHlt u1 u2 u3 s

end Sys2Proof.Machine
end

