-- ==== Sys2Proof/Decode.lean ====
section
/-! DEFINITION. The decoder, total on every cell value, and after it the encoder (30_encoding.md R50 to R59, R65). -/

namespace Sys2Proof

/-- `digit_k(w)` of R6, taken of `w >= 0` only. -/
def digit (k : Nat) (w : Int) : Int := w / 10 ^ k % 10

/-- The addressing mode a mode digit stands for (R53); any other digit stands for none. -/
def Mode.ofDigit (d : Int) : Option Mode :=
  if d = 0 then some .position else if d = 1 then some .immediate else if d = 2 then some .relative else none

/-- The mode digit of a mode (R53). -/
def Mode.digit : Mode → Int
  | .position => 0
  | .immediate => 1
  | .relative => 2

/-- The ten operations of R56. -/
inductive Op
  | add | mul | inp | out | jt | jf | lt | eq | arb | hlt
deriving DecidableEq, Repr

/-- All operations, in the table's order. -/
def Op.all : List Op := [.add, .mul, .inp, .out, .jt, .jf, .lt, .eq, .arb, .hlt]

/-- Column "op" of R56. -/
def Op.code : Op → Int
  | .add => 1
  | .mul => 2
  | .inp => 3
  | .out => 4
  | .jt => 5
  | .jf => 6
  | .lt => 7
  | .eq => 8
  | .arb => 9
  | .hlt => 99

/-- Column "length" of R56: the cells an instruction takes. -/
def Op.length : Op → Nat
  | .add => 4
  | .mul => 4
  | .inp => 2
  | .out => 2
  | .jt => 3
  | .jf => 3
  | .lt => 4
  | .eq => 4
  | .arb => 2
  | .hlt => 1

/-- The operation an opcode field selects; `none` for 0 and 10 to 98 (R52). -/
def Op.ofCode (c : Int) : Option Op := Op.all.find? fun op => op.code == c

/-- Why a word is no instruction (R58); the word itself is the fault's info. -/
inductive DecodeError
  /-- A negative word or an unknown opcode. -/
  | invalidOpcode
  /-- A mode digit of 3 to 9, or a word of 100000 or more. -/
  | invalidMode
  /-- A write parameter in Immediate mode. -/
  | immediateWriteTarget
deriving DecidableEq, Repr

/-- A read parameter from its mode and its operand word (R54, R55). -/
def Operand.ofMode (m : Mode) (n : Int) : Operand :=
  match m with
  | .position => .position n
  | .immediate => .immediate n
  | .relative => .relative n

/-- A write parameter from its mode and its operand word; Immediate is refused (R54). -/
def Target.ofMode (m : Mode) (n : Int) : Except DecodeError Target :=
  match m with
  | .position => .ok (.position n)
  | .immediate => .error .immediateWriteTarget
  | .relative => .ok (.relative n)

/-- Puts an instruction together from its operation, its three mode digits and its operand words `o 1`, `o 2`, `o 3` (R50, R56). -/
def assemble (op : Op) (m1 m2 m3 : Mode) (o : Nat → Int) : Except DecodeError Instr :=
  match op with
  | .add => (Target.ofMode m3 (o 3)).map (Instr.add (Operand.ofMode m1 (o 1)) (Operand.ofMode m2 (o 2)))
  | .mul => (Target.ofMode m3 (o 3)).map (Instr.mul (Operand.ofMode m1 (o 1)) (Operand.ofMode m2 (o 2)))
  | .inp => (Target.ofMode m1 (o 1)).map fun d => Instr.inp d m2 m3
  | .out => .ok (Instr.out (Operand.ofMode m1 (o 1)) m2 m3)
  | .jt => .ok (Instr.jt (Operand.ofMode m1 (o 1)) (Operand.ofMode m2 (o 2)) m3)
  | .jf => .ok (Instr.jf (Operand.ofMode m1 (o 1)) (Operand.ofMode m2 (o 2)) m3)
  | .lt => (Target.ofMode m3 (o 3)).map (Instr.lt (Operand.ofMode m1 (o 1)) (Operand.ofMode m2 (o 2)))
  | .eq => (Target.ofMode m3 (o 3)).map (Instr.eq (Operand.ofMode m1 (o 1)) (Operand.ofMode m2 (o 2)))
  | .arb => .ok (Instr.arb (Operand.ofMode m1 (o 1)) m2 m3)
  | .hlt => .ok (Instr.hlt m1 m2 m3)

/-- The decode stage of R70 for the instruction word `w` with operand words `o k = M[pc+k]`. The checks stand in the order of R58 and R173. -/
def decode (w : Int) (o : Nat → Int) : Except DecodeError Instr :=
  if w < 0 then .error .invalidOpcode
  else
    match Op.ofCode (w % 100) with
    | none => .error .invalidOpcode
    | some op =>
      match Mode.ofDigit (digit 2 w), Mode.ofDigit (digit 3 w), Mode.ofDigit (digit 4 w) with
      | some m1, some m2, some m3 => if 100000 ≤ w then .error .invalidMode else assemble op m1 m2 m3 o
      | _, _, _ => .error .invalidMode

/-- Decoding the instruction at the head of a list of cells; a cell the list does not hold reads 0, as in memory (R34). -/
def decodeCells (cells : List Int) : Except DecodeError Instr :=
  decode (cells.getD 0 0) fun k => cells.getD k 0

/-- The host's reading of a row of the opcode table: the `nbits` low bits of `w` are the number in the instruction
word, and every operand word is 0 (log entry 4). -/
def decodeTableWord (nbits w : Nat) : Option Instr :=
  match decodeCells [((w % 2 ^ nbits : Nat) : Int)] with
  | .ok i => some i
  | .error _ => none

/-- The operation of an instruction. -/
def Instr.op : Instr → Op
  | .add _ _ _ => .add
  | .mul _ _ _ => .mul
  | .inp _ _ _ => .inp
  | .out _ _ _ => .out
  | .jt _ _ _ => .jt
  | .jf _ _ _ => .jf
  | .lt _ _ _ => .lt
  | .eq _ _ _ => .eq
  | .arb _ _ _ => .arb
  | .hlt _ _ _ => .hlt

/-- The mode at position 1 of the instruction word (R51). -/
def Instr.mode1 : Instr → Mode
  | .add a _ _ => a.mode
  | .mul a _ _ => a.mode
  | .inp d _ _ => d.mode
  | .out a _ _ => a.mode
  | .jt a _ _ => a.mode
  | .jf a _ _ => a.mode
  | .lt a _ _ => a.mode
  | .eq a _ _ => a.mode
  | .arb a _ _ => a.mode
  | .hlt u1 _ _ => u1

/-- The mode at position 2 of the instruction word (R51). -/
def Instr.mode2 : Instr → Mode
  | .add _ b _ => b.mode
  | .mul _ b _ => b.mode
  | .inp _ u2 _ => u2
  | .out _ u2 _ => u2
  | .jt _ t _ => t.mode
  | .jf _ t _ => t.mode
  | .lt _ b _ => b.mode
  | .eq _ b _ => b.mode
  | .arb _ u2 _ => u2
  | .hlt _ u2 _ => u2

/-- The mode at position 3 of the instruction word (R51). -/
def Instr.mode3 : Instr → Mode
  | .add _ _ d => d.mode
  | .mul _ _ d => d.mode
  | .inp _ _ u3 => u3
  | .out _ _ u3 => u3
  | .jt _ _ u3 => u3
  | .jf _ _ u3 => u3
  | .lt _ _ d => d.mode
  | .eq _ _ d => d.mode
  | .arb _ _ u3 => u3
  | .hlt _ _ u3 => u3

/-- The instruction word `10000*m3 + 1000*m2 + 100*m1 + op` (R51, R60). -/
def Instr.word (i : Instr) : Int :=
  10000 * i.mode3.digit + 1000 * i.mode2.digit + 100 * i.mode1.digit + i.op.code

/-- The cells of an instruction at increasing addresses (R50). -/
def encode (i : Instr) : List Int := i.word :: i.operandWords

end Sys2Proof
end

