-- ==== Sys2Proof/Machine/Fetch.lean ====
section
/-! DEFINITION. Fetching and decoding the instruction at the pc, and the STEP command around an execute stage (40_execution_cycle.md R70, R71; 47_host_operations.md R148). -/

namespace Sys2Proof.Machine

/-- The fault a decode error raises (R58, R170). -/
def decodeCause : DecodeError → FaultCause
  | .invalidOpcode => .invalidOpcode
  | .invalidMode => .invalidMode
  | .immediateWriteTarget => .immediateWriteTarget

/-- Fetch and decode at the pc: the instruction word is `M[pc]`, operand word k is `M[pc+k]`; an illegal word raises
its fault with the word as info (R70, R71). -/
def fetch (s : State) : Except Trap Instr :=
  match decode (s.mem.read s.pc) (fun k => s.mem.read (s.pc + k)) with
  | .ok i => .ok i
  | .error e => .error ⟨decodeCause e, s.mem.read s.pc⟩

/-- `Step()` of R70 around an execute stage. -/
def coreStepWith (execute : Instr → State → Result) (s : State) : Result :=
  match fetch s with
  | .ok i => execute i s
  | .error t => .next (s.enterFault t)

/-- The STEP command (R148): a stopped core does nothing; any other runs one `Step()`, a paused one after resuming. -/
def stepWith (execute : Instr → State → Result) (s : State) : Result :=
  if s.stopped then .next s else coreStepWith execute s.resume

/-- A stopped core made ready to fetch again: running, fault registers clear. Any other state is left alone. -/
def State.readyToFetch (s : State) : State :=
  if s.stopped then { s with runState := .running, faultCause := .noFault, faultInfo := 0 } else s

/-- Places an instruction word at the pc, with operand words of 0 after it (log entry 4). -/
def State.placeWord (s : State) (w : Int) : State :=
  (((s.store s.pc w).store (s.pc + 1) 0).store (s.pc + 2) 0).store (s.pc + 3) 0

end Sys2Proof.Machine
end

