-- ==== Sys2Proof/Machine/Step.lean ====
section
/-! DEFINITION. One step of the machine: the host's STEP command (47_host_operations.md R148; log entry 1). -/

namespace Sys2Proof.Machine

/-- One step: STEP on this hardware. -/
def step (s : State) : Host.Outcome State Fault Refusal := stepWith exec s

/-- `s` with the instruction of a table row placed where the next step fetches it (log entry 4). -/
def State.withFetchWord (s : State) (nbits w : Nat) : State :=
  s.readyToFetch.placeWord ((w % 2 ^ nbits : Nat) : Int)

end Sys2Proof.Machine
end

