-- ==== Sys2Proof/Machine/Commands.lean ====
section
/-! DEFINITION. The host's transactions (47_host_operations.md R140 to R166; 70_reset_and_hazards.md R200). -/

namespace Sys2Proof.Machine

/-- Every transaction of R140 but RUN, which need not return. Addresses are integers here, so that an argument outside
its domain can be written down and refused (R142). -/
inductive Request
  /-- RESET(P) (R200). -/
  | reset (program : List Int)
  /-- STEP (R148). -/
  | step
  /-- ADD_INPUT(v) (R150). -/
  | addInput (v : Int)
  /-- HAS_OUTPUT (R151). -/
  | hasOutput
  /-- POP_OUTPUT_FRONT (R152). -/
  | popOutputFront
  /-- POP_OUTPUT_BACK (R153). -/
  | popOutputBack
  /-- PEEK_ALL_OUTPUT (R154). -/
  | peekAllOutput
  /-- READ_MEM(a) (R158). -/
  | readMem (a : Int)
  /-- WRITE_MEM(a, v) (R159). -/
  | writeMem (a : Int) (v : Int)
  /-- IS_FINISHED (R160). -/
  | isFinished
  /-- IS_AWAITING_INPUT (R161). -/
  | isAwaitingInput
  /-- IS_FAULTED (R162). -/
  | isFaulted
  /-- FAULT_STATUS (R162). -/
  | faultStatus
deriving DecidableEq, Repr

/-- What a transaction gives back (R140, column "result"). -/
inductive Reply
  /-- No result. -/
  | none
  /-- A boolean. -/
  | flag (b : Bool)
  /-- A value, or nothing when the queue was empty. -/
  | popped (v : Option Int)
  /-- A list of values. -/
  | values (vs : List Int)
  /-- A value. -/
  | value (v : Int)
  /-- The pair (cause, info). -/
  | status (cause : FaultCause) (info : Int)
deriving DecidableEq, Repr

/-- RESET(P): every item of state at the value of R22 (R200). -/
def State.load (program : List Int) : State := { State.reset with mem := Memory.image 0 program }

/-- The domain of a transaction's arguments (R142): values fit, addresses are not negative. -/
def Request.inDomain (width : Option Nat) : Request → Bool
  | .reset program => program.all (fits width)
  | .addInput v => fits width v
  | .readMem a => decide (0 ≤ a)
  | .writeMem a v => decide (0 ≤ a) && fits width v
  | .step => true
  | .hasOutput => true
  | .popOutputFront => true
  | .popOutputBack => true
  | .peekAllOutput => true
  | .isFinished => true
  | .isAwaitingInput => true
  | .isFaulted => true
  | .faultStatus => true

/-- The state and the reply after a transaction that is no command (R150 to R162, R200). STEP is `answer`'s. -/
def port (s : State) : Request → State × Reply
  | .reset program => (State.load program, .none)
  | .step => (s, .none)
  | .addInput v => (s.setInq (s.inq ++ [v]), .none)
  | .hasOutput => (s, .flag (!s.outq.isEmpty))
  | .popOutputFront => (s.setOutq s.outq.tail, .popped s.outq.head?)
  | .popOutputBack => (s.setOutq s.outq.dropLast, .popped s.outq.getLast?)
  | .peekAllOutput => (s, .values s.outq)
  | .readMem a => (s, .value (s.mem.read a.toNat))
  | .writeMem a v => (s.store a.toNat v, .none)
  | .isFinished => (s, .flag (s.runState == .halted))
  | .isAwaitingInput => (s, .flag (s.runState == .paused))
  | .isFaulted => (s, .flag (s.runState == .faulted))
  | .faultStatus => (s, .status s.faultCause s.faultInfo)

/-- Gives an outcome the reply of a command, which is none. -/
def withNoReply : Result → Host.Outcome (State × Reply) Fault Refusal
  | .next t => .next (t, .none)
  | .fault f => .fault f
  | .refused r => .refused r

/-- A transaction on a machine of a given width and step; an argument outside its domain is refused (R142). -/
def answer (width : Option Nat) (stepOf : State → Result) (q : Request) (s : State) :
    Host.Outcome (State × Reply) Fault Refusal :=
  if q.inDomain width then
    match q with
    | .step => withNoReply (stepOf s)
    | other => .next (port s other)
  else .refused .hostArgument

/-- A transaction on this hardware. -/
def request (q : Request) (s : State) : Host.Outcome (State × Reply) Fault Refusal :=
  answer Config.valueBits Sys2Proof.Machine.step q s

/-- The loop of RUN, cut off after `n` steps: the first state that is not `Running`, if it comes within `n` steps (R147). -/
def runLoop : Nat → State → Option State
  | 0, _ => none
  | n + 1, s =>
    match Sys2Proof.Machine.step s with
    | .next t => if t.runState = .running then runLoop n t else some t
    | .fault _ => none
    | .refused _ => none

/-- RUN within `n` steps (R147). The cut-off is only how an unbounded iteration is written down. -/
def runWithin (n : Nat) (s : State) : Option State :=
  if s.stopped then some s else runLoop n s.resume

/-- RUN from `s` returns with the state `t` (R147, R166). RUN has no step limit, and may return for no `t` (R149). -/
def RunReturns (s t : State) : Prop := ∃ n, runWithin n s = some t

/-- Any transaction of R140. -/
inductive Transaction
  /-- RUN (R147). -/
  | run
  /-- Every other transaction. -/
  | ask (q : Request)
deriving DecidableEq, Repr

/-- The transaction takes `s` to `t` and answers `r`. A RUN that does not return, and a refused request, take `s` nowhere. -/
def Performs (s : State) (x : Transaction) (r : Reply) (t : State) : Prop :=
  match x with
  | .run => RunReturns s t ∧ r = .none
  | .ask q => request q s = .next (t, r)

/-- A sequence of transactions, performed one at a time (R141), with their replies in order. -/
def Session (s : State) : List (Transaction × Reply) → State → Prop
  | [], t => t = s
  | (x, r) :: rest, t => ∃ u, Performs s x r u ∧ Session u rest t

end Sys2Proof.Machine
end

