-- ==== Sys2Proof/Machine/Width.lean ====
section
/-! DEFINITION. The same machine at any VALUE_BITS (00_scope.md R5, 92_eei_decisions.md D1). At `inf` it is `step` itself. -/

namespace Sys2Proof.Machine

/-- The execute stage at a given width: ADD, MUL and ARB check their result (R84), the others have none to check. -/
def execAt (width : Option Nat) (i : Instr) (s : State) : Result :=
  match i with
  | .add a b dest => execAddAt width a b dest s
  | .mul a b dest => execMulAt width a b dest s
  | .inp dest u2 u3 => execIn dest u2 u3 s
  | .out a u2 u3 => execOut a u2 u3 s
  | .jt a target u3 => execJt a target u3 s
  | .jf a target u3 => execJf a target u3 s
  | .lt a b dest => execLt a b dest s
  | .eq a b dest => execEq a b dest s
  | .arb a _ _ => execArbAt width a s
  | .hlt u1 u2 u3 => execHlt u1 u2 u3 s

/-- STEP at a given width. -/
def stepAt (width : Option Nat) (s : State) : Result := stepWith (execAt width) s

/-- The machine at a given width, in the host's form, so that it can be run for many steps. -/
def coreAt (width : Option Nat) : Host.Core :=
  { State := State, Fault := Fault, Refusal := Refusal, step := stepAt width, reset := State.reset }

end Sys2Proof.Machine
end

