-- ==== Sys2Proof/WellFormed.lean ====
section
/-! DEFINITION. Which instruction terms can stand in memory: every operand word is a value of the machine (00_scope.md R6, 10_state.md R24 (b)).
The other limits of an encoding, legal modes per parameter and mode digits 0 to 2 (30_encoding.md R53, R54), hold by the types of Word.lean. -/

namespace Sys2Proof

/-- Well-formed at a width: each operand word satisfies `fits`. -/
def Instr.wellFormedAt (width : Option Nat) (i : Instr) : Bool :=
  i.operandWords.all (fits width)

/-- Well-formed on this hardware, where VALUE_BITS is `inf`. -/
def Instr.wellFormed (i : Instr) : Bool :=
  i.wellFormedAt Config.valueBits

end Sys2Proof
end

