-- ==== Sys2Proof/Safety.lean ====
section
/-! DEFINITION. The words the claims use: the invariant of 10_state.md R24, the illegal classes of 30_encoding.md R58,
the encoding clauses of the instruction rules, and the pseudocode of 40_execution_cycle.md R70 on raw digits. -/

namespace Sys2Proof

open Machine

/-- The invariants of R24 that are about one state, at a given width: (a) holds by the type of `pc`; (b) every cell,
queue element and `rb` fits; (c) the fault cause is set exactly when the core is `Faulted`; R17: the info is 0 when
the cause is. The canonical form of memory is the model's own. -/
structure Machine.State.InvAt (width : Option Nat) (s : State) : Prop where
  /-- Memory is in canonical form. -/
  canonical : s.mem.wf
  /-- Every cell fits. -/
  cellsFit : ∀ c ∈ s.mem, fits width c.2 = true
  /-- `rb` fits. -/
  rbFits : fits width s.rb = true
  /-- Every queued input fits. -/
  inqFits : ∀ v ∈ s.inq, fits width v = true
  /-- Every queued output fits. -/
  outqFits : ∀ v ∈ s.outq, fits width v = true
  /-- R24 (c). -/
  causeSet : s.faultCause ≠ .noFault ↔ s.runState = .faulted
  /-- R17. -/
  infoClear : s.faultCause = .noFault → s.faultInfo = 0

/-- The invariant at this hardware's width. -/
abbrev Machine.State.Inv (s : State) : Prop := s.InvAt Config.valueBits

/-- The cells of an instruction stand in memory at the pc. -/
def HoldsAtPc (s : State) (i : Instr) : Prop :=
  ∀ k, k < (encode i).length → s.mem.read (s.pc + k) = (encode i).getD k 0

/-- A mode digit of 3 to 9 at any position, or excess digits (R58). -/
abbrev BadDigits (w : Int) : Prop := 2 < digit 2 w ∨ 2 < digit 3 w ∨ 2 < digit 4 w ∨ 100000 ≤ w

/-- The opcodes of R56. -/
def legalOpcodes : List Int := [1, 2, 3, 4, 5, 6, 7, 8, 9, 99]

/-- The illegal classes of R58, tested in the table's order. -/
def illegalClass (w : Int) : Option DecodeError :=
  if w < 0 then some .invalidOpcode
  else if w % 100 ∉ legalOpcodes then some .invalidOpcode
  else if BadDigits w then some .invalidMode
  else if (w % 100 ∈ [1, 2, 7, 8] ∧ digit 4 w = 1) ∨ (w % 100 = 3 ∧ digit 2 w = 1) then some .immediateWriteTarget
  else none

/-- The words `10000*m3 + 1000*m2 + 100*m1 + code` over given mode digits (R51, R60). -/
def wordsOf (code : Int) (m1s m2s m3s : List Int) : List Int :=
  m3s.flatMap fun m3 => m2s.flatMap fun m2 => m1s.map fun m1 => 10000 * m3 + 1000 * m2 + 100 * m1 + code

/-- The legal words of one opcode (R54, R57): a write parameter's digit is 0 or 2, every other digit 0, 1 or 2. -/
def legalWordsOf (op : Op) : List Int :=
  match op with
  | .add => wordsOf op.code [0, 1, 2] [0, 1, 2] [0, 2]
  | .mul => wordsOf op.code [0, 1, 2] [0, 1, 2] [0, 2]
  | .inp => wordsOf op.code [0, 2] [0, 1, 2] [0, 1, 2]
  | .out => wordsOf op.code [0, 1, 2] [0, 1, 2] [0, 1, 2]
  | .jt => wordsOf op.code [0, 1, 2] [0, 1, 2] [0, 1, 2]
  | .jf => wordsOf op.code [0, 1, 2] [0, 1, 2] [0, 1, 2]
  | .lt => wordsOf op.code [0, 1, 2] [0, 1, 2] [0, 2]
  | .eq => wordsOf op.code [0, 1, 2] [0, 1, 2] [0, 2]
  | .arb => wordsOf op.code [0, 1, 2] [0, 1, 2] [0, 1, 2]
  | .hlt => wordsOf op.code [0, 1, 2] [0, 1, 2] [0, 1, 2]

/-- The canonical word of an instruction: its unused mode digits set to 0 (R57). -/
def Instr.canonical : Instr → Instr
  | .add a b d => .add a b d
  | .mul a b d => .mul a b d
  | .inp d _ _ => .inp d .position .position
  | .out a _ _ => .out a .position .position
  | .jt a t _ => .jt a t .position
  | .jf a t _ => .jf a t .position
  | .lt a b d => .lt a b d
  | .eq a b d => .eq a b d
  | .arb a _ _ => .arb a .position .position
  | .hlt _ _ _ => .hlt .position .position .position

/-- The mode a digit 0, 1 or 2 stands for (R53). -/
def modeOf (d : Int) : Mode := if d = 0 then .position else if d = 1 then .immediate else .relative

/-- A read parameter from a mode digit 0, 1 or 2 and an operand word (R53, R55). -/
def readForm (d n : Int) : Operand :=
  if d = 0 then .position n else if d = 1 then .immediate n else .relative n

/-- A write parameter from a mode digit 0 or 2 and an operand word (R54). -/
def writeForm (d n : Int) : Target := if d = 0 then .position n else .relative n

/-- "Encoding" and "Exceptions at decode" of a rule for a 4-cell instruction: `ABC<code>, o_1, o_2, o_3`. -/
def DecodesWithDest (code : Int) (mk : Operand → Operand → Target → Instr) : Prop :=
  ∀ (w : Int) (o : Nat → Int), 0 ≤ w → w % 100 = code →
    decode w o =
      if BadDigits w then .error .invalidMode
      else if digit 4 w = 1 then .error .immediateWriteTarget
      else .ok (mk (readForm (digit 2 w) (o 1)) (readForm (digit 3 w) (o 2)) (writeForm (digit 4 w) (o 3)))

/-- The same for a jump: `-BC<code>, o_1, o_2`. -/
def DecodesAsJump (code : Int) (mk : Operand → Operand → Mode → Instr) : Prop :=
  ∀ (w : Int) (o : Nat → Int), 0 ≤ w → w % 100 = code →
    decode w o =
      if BadDigits w then .error .invalidMode
      else .ok (mk (readForm (digit 2 w) (o 1)) (readForm (digit 3 w) (o 2)) (modeOf (digit 4 w)))

/-- The same for an instruction with one read parameter: `--C<code>, o_1`. -/
def DecodesWithSource (code : Int) (mk : Operand → Mode → Mode → Instr) : Prop :=
  ∀ (w : Int) (o : Nat → Int), 0 ≤ w → w % 100 = code →
    decode w o =
      if BadDigits w then .error .invalidMode
      else .ok (mk (readForm (digit 2 w) (o 1)) (modeOf (digit 3 w)) (modeOf (digit 4 w)))

/-- "Exceptions at resolution" of a 4-cell instruction: `NegativeAddress` for parameter 1, 2 or 3, first in that order. -/
def FaultsOnAddresses (mk : Operand → Operand → Target → Instr) : Prop :=
  ∀ (a b : Operand) (d : Target) (s : State) (k : Int),
    (rdVal s a = .error ⟨.negativeAddress, k⟩ →
      exec (mk a b d) s = .next { s with runState := .faulted, faultCause := .negativeAddress, faultInfo := k }) ∧
    (∀ x, rdVal s a = .ok x → rdVal s b = .error ⟨.negativeAddress, k⟩ →
      exec (mk a b d) s = .next { s with runState := .faulted, faultCause := .negativeAddress, faultInfo := k }) ∧
    (∀ x y, rdVal s a = .ok x → rdVal s b = .ok y → wrAddr s d = .error ⟨.negativeAddress, k⟩ →
      exec (mk a b d) s = .next { s with runState := .faulted, faultCause := .negativeAddress, faultInfo := k })

/-- "Pseudocode" of ADD and MUL: the exact result is written and the pc advances by 4; at a finite width a result that
does not fit raises `ValueOverflow` with it (R84). -/
def WritesResult (mk : Operand → Operand → Target → Instr) (f : Int → Int → Int) : Prop :=
  ∀ (a b : Operand) (d : Target) (s : State) (x y : Int) (p : Nat),
    rdVal s a = .ok x → rdVal s b = .ok y → wrAddr s d = .ok p →
      exec (mk a b d) s = .next { s with mem := s.mem.write p (f x y), pc := s.pc + 4 }

/-- The same at every width (R84). -/
def WritesResultAtEveryWidth (mk : Operand → Operand → Target → Instr) (f : Int → Int → Int) : Prop :=
  ∀ (width : Option Nat) (a b : Operand) (d : Target) (s : State) (x y : Int) (p : Nat),
    rdVal s a = .ok x → rdVal s b = .ok y → wrAddr s d = .ok p →
      (fits width (f x y) = true →
        execAt width (mk a b d) s = .next { s with mem := s.mem.write p (f x y), pc := s.pc + 4 }) ∧
      (fits width (f x y) = false →
        execAt width (mk a b d) s =
          .next { s with runState := .faulted, faultCause := .valueOverflow, faultInfo := f x y })

/-- The rule of JT or JF: taken to an address, taken to a negative target, not taken, and the faults of resolution. -/
def JumpsWhen (mk : Operand → Operand → Mode → Instr) (condition : Int → Prop) : Prop :=
  ∀ (a t : Operand) (u : Mode) (s : State),
    (∀ x y, rdVal s a = .ok x → rdVal s t = .ok y → condition x → 0 ≤ y →
      exec (mk a t u) s = .next { s with pc := y.toNat }) ∧
    (∀ x y, rdVal s a = .ok x → rdVal s t = .ok y → condition x → y < 0 →
      exec (mk a t u) s = .next { s with runState := .faulted, faultCause := .negativeAddress, faultInfo := y }) ∧
    (∀ x y, rdVal s a = .ok x → rdVal s t = .ok y → ¬ condition x →
      exec (mk a t u) s = .next { s with pc := s.pc + 3 }) ∧
    (∀ k, rdVal s a = .error ⟨.negativeAddress, k⟩ →
      exec (mk a t u) s = .next { s with runState := .faulted, faultCause := .negativeAddress, faultInfo := k }) ∧
    (∀ x k, rdVal s a = .ok x → rdVal s t = .error ⟨.negativeAddress, k⟩ →
      exec (mk a t u) s = .next { s with runState := .faulted, faultCause := .negativeAddress, faultInfo := k })

/-- The write parameter of an instruction, if it has one (R54). -/
def Instr.dest : Instr → Option Target
  | .add _ _ d => some d
  | .mul _ _ d => some d
  | .inp d _ _ => some d
  | .out _ _ _ => none
  | .jt _ _ _ => none
  | .jf _ _ _ => none
  | .lt _ _ d => some d
  | .eq _ _ d => some d
  | .arb _ _ _ => none
  | .hlt _ _ _ => none

/-- The read parameters of an instruction, in parameter order (R54, R56). -/
def Instr.reads : Instr → List Operand
  | .add a b _ => [a, b]
  | .mul a b _ => [a, b]
  | .inp _ _ _ => []
  | .out a _ _ => [a]
  | .jt a t _ => [a, t]
  | .jf a t _ => [a, t]
  | .lt a b _ => [a, b]
  | .eq a b _ => [a, b]
  | .arb a _ _ => [a]
  | .hlt _ _ _ => []

/-- Every parameter of the instruction resolves in `s` (R81). -/
def Instr.ResolvesIn (s : State) (i : Instr) : Prop :=
  (∀ a ∈ i.reads, ∃ x, rdVal s a = .ok x) ∧ ∀ d, i.dest = some d → ∃ p, wrAddr s d = .ok p

/-- The target value of a jump that is taken in `s`; nothing for any other instruction (R80, R110, R111). -/
def jumpTarget (s : State) : Instr → Option Int
  | .jt a t _ =>
    match rdVal s a, rdVal s t with
    | .ok x, .ok y => if x ≠ 0 then some y else none
    | _, _ => none
  | .jf a t _ =>
    match rdVal s a, rdVal s t with
    | .ok x, .ok y => if x = 0 then some y else none
    | _, _ => none
  | _ => none

/-- The instruction at the pc is an IN that resolves and finds no input (R176). -/
def StarvedAtPc (s : State) : Prop :=
  ∃ d u2 u3 p, fetch s = .ok (.inp d u2 u3) ∧ wrAddr s d = .ok p ∧ s.inq = []

/-- The step from `s` raises a fault (R170 at VALUE_BITS = inf): the word at the pc is illegal, or a parameter of its
instruction does not resolve, or it is a taken jump with a negative target. -/
def FaultsAtPc (s : State) : Prop :=
  (∃ e, fetch s = .error e) ∨
  ∃ i, fetch s = .ok i ∧ (¬ i.ResolvesIn s ∨ ∃ y, jumpTarget s i = some y ∧ y < 0)

/-- The step from `s` completes an instruction other than HLT (R72, row "completes"). -/
def CompletesAtPc (s : State) : Prop :=
  ∃ i, fetch s = .ok i ∧ i.op ≠ .hlt ∧ i.ResolvesIn s ∧ (i.op = .inp → s.inq ≠ []) ∧
    ∀ y, jumpTarget s i = some y → 0 ≤ y

/-- What a cell reads as once the host has patched cell `a` with `v` (R159). -/
def patched (m : Memory) (a : Nat) (v : Int) (b : Nat) : Int := if b = a then v else m.read b

/-- A Relative operand turned into the Position operand with the address computed by hand (R131). -/
def Operand.byHand (rb : Int) : Operand → Operand
  | .position n => .position n
  | .immediate n => .immediate n
  | .relative n => .position (rb + n)

/-- The same for a write parameter (R131). -/
def Target.byHand (rb : Int) : Target → Target
  | .position n => .position n
  | .relative n => .position (rb + n)

/-- An instruction with every Relative parameter turned into Position mode by hand (R131). -/
def Instr.byHand (rb : Int) : Instr → Instr
  | .add a b d => .add (a.byHand rb) (b.byHand rb) (d.byHand rb)
  | .mul a b d => .mul (a.byHand rb) (b.byHand rb) (d.byHand rb)
  | .inp d u2 u3 => .inp (d.byHand rb) u2 u3
  | .out a u2 u3 => .out (a.byHand rb) u2 u3
  | .jt a t u3 => .jt (a.byHand rb) (t.byHand rb) u3
  | .jf a t u3 => .jf (a.byHand rb) (t.byHand rb) u3
  | .lt a b d => .lt (a.byHand rb) (b.byHand rb) (d.byHand rb)
  | .eq a b d => .eq (a.byHand rb) (b.byHand rb) (d.byHand rb)
  | .arb a u2 u3 => .arb (a.byHand rb) u2 u3
  | .hlt u1 u2 u3 => .hlt u1 u2 u3

/-- The values the host adds in a session, in order. -/
def addedInputs : List (Transaction × Reply) → List Int
  | [] => []
  | (.ask (.addInput v), _) :: rest => v :: addedInputs rest
  | _ :: rest => addedInputs rest

/-- A session without a RESET. -/
def NoReset (l : List (Transaction × Reply)) : Prop := ∀ x ∈ l, ∀ p, x.1 ≠ .ask (.reset p)

/-- A session that takes nothing out of the output queue by a pop. -/
def NoPop (l : List (Transaction × Reply)) : Prop :=
  ∀ x ∈ l, x.1 ≠ .ask .popOutputFront ∧ x.1 ≠ .ask .popOutputBack

/-- Two states that differ at most in the pc. -/
def SameButPc (s t : State) : Prop := { s with pc := t.pc } = t

namespace Reference

/-- The state after `raise C(info)` (R79). -/
def raised (s : State) (cause : FaultCause) (info : Int) : State :=
  { s with runState := .faulted, faultCause := cause, faultInfo := info }

/-- `a` of R74 for a mode digit 0 or 2 and an operand word. -/
def address (s : State) (m o : Int) : Int := if m = 2 then s.rb + o else o

/-- The first negative effective address among parameters given as (mode digit, operand word), in order (R77, R81). -/
def firstNegative (s : State) : List (Int × Int) → Option Int
  | [] => none
  | (m, o) :: rest => if m ≠ 1 ∧ address s m o < 0 then some (address s m o) else firstNegative s rest

/-- `len(op) - 1` of R70. -/
def parameters (op : Int) : Nat :=
  if op ∈ [1, 2, 7, 8] then 3 else if op ∈ [5, 6] then 2 else if op = 99 then 0 else 1

/-- A parameter's value (R76), its address being known not to be negative. -/
def operandValue (s : State) (m o : Int) : Int := if m = 1 then o else s.mem.read (address s m o).toNat

/-- Stores and advances the pc by 4; ADD and MUL check the range first (R84). -/
def stored (s : State) (d : Nat) (v : Int) : State := { s with mem := s.mem.write d v, pc := s.pc + 4 }

/-- The execute stage of R83 on an opcode, with the parameter values `x`, `y` and the destination addresses `d1`, `d3`. -/
def executed (width : Option Nat) (s : State) (op x y : Int) (d1 d3 : Nat) : State :=
  if op = 1 then (if fits width (x + y) then stored s d3 (x + y) else raised s .valueOverflow (x + y))
  else if op = 2 then (if fits width (x * y) then stored s d3 (x * y) else raised s .valueOverflow (x * y))
  else if op = 3 then
    match s.inq with
    | [] => { s with runState := .paused }
    | v :: rest => { s with inq := rest, mem := s.mem.write d1 v, pc := s.pc + 2 }
  else if op = 4 then { s with outq := s.outq ++ [x], pc := s.pc + 2 }
  else if op = 5 then
    if x ≠ 0 then (if y < 0 then raised s .negativeAddress y else { s with pc := y.toNat }) else { s with pc := s.pc + 3 }
  else if op = 6 then
    if x = 0 then (if y < 0 then raised s .negativeAddress y else { s with pc := y.toNat }) else { s with pc := s.pc + 3 }
  else if op = 7 then stored s d3 (if x < y then 1 else 0)
  else if op = 8 then stored s d3 (if x = y then 1 else 0)
  else if op = 9 then
    if fits width (s.rb + x) then { s with rb := s.rb + x, pc := s.pc + 2 } else raised s .valueOverflow (s.rb + x)
  else { s with runState := .halted, pc := s.pc + 1 }

/-- `Step()` as R70 writes it: on the digits of the raw word, with no instruction type and no encoder. -/
def coreStep (width : Option Nat) (s : State) : State :=
  let w := s.mem.read s.pc
  let op := w % 100
  let m1 := w / 100 % 10
  let m2 := w / 1000 % 10
  let m3 := w / 10000 % 10
  let o := fun k => s.mem.read (s.pc + k)
  if w < 0 then raised s .invalidOpcode w
  else if op ∉ legalOpcodes then raised s .invalidOpcode w
  else if m1 > 2 ∨ m2 > 2 ∨ m3 > 2 then raised s .invalidMode w
  else if w ≥ 100000 then raised s .invalidMode w
  else if op ∈ [1, 2, 7, 8] ∧ m3 = 1 then raised s .immediateWriteTarget w
  else if op = 3 ∧ m1 = 1 then raised s .immediateWriteTarget w
  else
    match firstNegative s ([(m1, o 1), (m2, o 2), (m3, o 3)].take (parameters op)) with
    | some a => raised s .negativeAddress a
    | none =>
      executed width s op (operandValue s m1 (o 1)) (operandValue s m2 (o 2))
        (address s m1 (o 1)).toNat (address s m3 (o 3)).toNat

/-- STEP as R148 writes it. -/
def step (width : Option Nat) (s : State) : State :=
  if s.runState = .halted ∨ s.runState = .faulted then s else coreStep width { s with runState := .running }

end Reference

end Sys2Proof
end

