-- ==== Sys2Proof/Certificates/Slice0/Obligations.lean ====
section
/-! DEFINITION. The statements about the model, each a Prop; they are proved elsewhere. -/

open Sys2Proof Sys2Proof.Machine

/-- Decoding the cells of any instruction, whatever follows them, gives the instruction back: no bit of an encoding is
dropped (30_encoding.md sections 1 and 5). -/
def Obligations.DecodeOfEncodeIsTheInstruction : Prop :=
  ∀ (i : Instr) (rest : List Int), decodeCells (encode i ++ rest) = .ok i

/-- Every word the decoder accepts is the word its instruction encodes to, and the operand words are the ones read
(30_encoding.md R50, R51). -/
def Obligations.EncodeOfDecodeIsTheCells : Prop :=
  ∀ (w : Int) (o : Nat → Int) (i : Instr), decode w o = .ok i →
    encode i = w :: ((List.range (i.op.length - 1)).map fun k => o (k + 1)) ∧ (encode i).length = i.op.length

/-- A few words written out from R51 and R56, one per family: MUL 1002 (the source's own example), LT 21107, IN 203,
OUT 104, JF 1206, ARB 9, HLT 99. A sanity statement. -/
def Obligations.DecoderReadsWrittenOutWords : Prop :=
  decodeCells [1002, 4, 3, 4] = .ok (.mul (.position 4) (.immediate 3) (.position 4)) ∧
  decodeCells [21107, 5, -7, 3] = .ok (.lt (.immediate 5) (.immediate (-7)) (.relative 3)) ∧
  decodeCells [203, -3] = .ok (.inp (.relative (-3)) .position .position) ∧
  decodeCells [104, 1125899906842624] = .ok (.out (.immediate 1125899906842624) .position .position) ∧
  decodeCells [1206, 0, 14] = .ok (.jf (.relative 0) (.immediate 14) .position) ∧
  decodeCells [9, 5] = .ok (.arb (.position 5) .position .position) ∧
  decodeCells [99] = .ok (.hlt .position .position .position)

/-- R58. Every cell value is a legal word or falls in exactly the first class of the table that it meets, and the step
that fetches an illegal word raises that class's fault with the word as info; a legal word is executed. -/
def Obligations.IllegalWordsFaultByTheirFirstClass : Prop :=
  (∀ (w : Int) (o : Nat → Int) (e : DecodeError), decode w o = .error e ↔ illegalClass w = some e) ∧
  (∀ s : State, s.stopped = false →
    match illegalClass (s.mem.read s.pc) with
    | some .invalidOpcode =>
      step s = .next { s with runState := .faulted, faultCause := .invalidOpcode, faultInfo := s.mem.read s.pc }
    | some .invalidMode =>
      step s = .next { s with runState := .faulted, faultCause := .invalidMode, faultInfo := s.mem.read s.pc }
    | some .immediateWriteTarget =>
      step s = .next { s with runState := .faulted, faultCause := .immediateWriteTarget, faultInfo := s.mem.read s.pc }
    | none => ∃ i, fetch s = .ok i ∧ step s = exec i { s with runState := .running })

/-- R57 (marked "derived" in the spec): the legal words are exactly the 225 listed by opcode and mode digits, 18 for
each of ADD, MUL, LT, EQ, IN and 27 for each of OUT, ARB, JT, JF, HLT; 99 of them are canonical. -/
def Obligations.LegalWordsAreTheTable : Prop :=
  (∀ (w : Int) (o : Nat → Int), (∃ i, decode w o = .ok i) ↔ w ∈ Op.all.flatMap legalWordsOf) ∧
  (Op.all.map fun op => (legalWordsOf op).length) = [18, 18, 18, 27, 27, 27, 18, 18, 27, 27] ∧
  (Op.all.flatMap legalWordsOf).Nodup ∧
  ((Op.all.flatMap legalWordsOf).filter fun w =>
    decide (((decode w fun _ => 0).toOption.map fun i => i.canonical.word) = some w)).length = 99

/-- R53, by the spec's decision D4: a mode digit 0, 1 or 2 at a position the opcode does not use is ignored. Two legal
words with the same canonical form have the same effect in every state. -/
def Obligations.UnusedModeDigitsHaveNoEffect : Prop :=
  ∀ (w v : Int) (o : Nat → Int) (i j : Instr), decode w o = .ok i → decode v o = .ok j →
    i.canonical = j.canonical → ∀ s : State, exec i s = exec j s

/-- R76 and R78: the value of a read parameter and the address of a write parameter in every mode; a negative effective
address gives no value but the trap `NegativeAddress` with that address. -/
def Obligations.OperandFormsResolveByTheRule : Prop :=
  ∀ (s : State) (n : Int),
    rdVal s (.immediate n) = .ok n ∧
    (0 ≤ n → rdVal s (.position n) = .ok (s.mem.read n.toNat) ∧ wrAddr s (.position n) = .ok n.toNat) ∧
    (n < 0 → rdVal s (.position n) = .error ⟨.negativeAddress, n⟩ ∧
      wrAddr s (.position n) = .error ⟨.negativeAddress, n⟩) ∧
    (0 ≤ s.rb + n → rdVal s (.relative n) = .ok (s.mem.read (s.rb + n).toNat) ∧
      wrAddr s (.relative n) = .ok (s.rb + n).toNat) ∧
    (s.rb + n < 0 → rdVal s (.relative n) = .error ⟨.negativeAddress, s.rb + n⟩ ∧
      wrAddr s (.relative n) = .error ⟨.negativeAddress, s.rb + n⟩)

/-- R131: Relative mode accesses `rb + o` identically to computing that address by hand and using Position mode; and
`rb` enters only there: without a Relative parameter, every instruction but ARB does the same whatever `rb` is. -/
def Obligations.RelativeModeIsPositionModeByHand : Prop :=
  (∀ (i : Instr) (s : State), exec i s = exec (i.byHand s.rb) s) ∧
  (∀ (i : Instr) (s t : State) (r : Int), (∀ k, i.byHand k = i) → i.op ≠ .arb → exec i s = .next t →
    exec i { s with rb := r } = .next { t with rb := r })

/-- When the cells at the pc are those of an instruction and the core is not stopped, a step is the execute stage of that
instruction, on the state with `run_state = Running` (R70, R148). Nothing else happens around it: the instruction
writes the pc itself. -/
def Obligations.StepRunsTheInstructionAtThePc : Prop :=
  ∀ (s : State) (i : Instr), s.runState = .running ∨ s.runState = .paused → HoldsAtPc s i →
    step s = exec i { s with runState := .running }

/-- The step of the model is, in every state, the step of R70, R79, R83 and R148 written on the digits of the raw word,
and no step is a fault or a refusal of the model. At every width. That the pc advances by 1 after HLT is the spec's decision
D13 (log entry 13). -/
def Obligations.StepIsThePseudocode : Prop :=
  (∀ s : State, step s = .next (Reference.step Config.valueBits s)) ∧
  (∀ (width : Option Nat) (s : State), stepAt width s = .next (Reference.step width s))

/-- Where every cell of memory fits (R24 (b)), the instruction a fetch gives is well-formed: its operand words are raw
whole cells (30_encoding.md R55). -/
def Obligations.FetchedInstructionsAreWellFormed : Prop :=
  ∀ (width : Option Nat) (s : State) (i : Instr), Config.legalWidth width = true → s.InvAt width →
    fetch s = .ok i → i.wellFormedAt width = true

/-- R90 and R91: encoding, effect at this hardware's width and at every width, faults of resolution. -/
def Obligations.ArithmeticWritesTheExactResult : Prop :=
  DecodesWithDest 1 .add ∧ WritesResult .add (fun x y => x + y) ∧
  WritesResultAtEveryWidth .add (fun x y => x + y) ∧ FaultsOnAddresses .add ∧
  DecodesWithDest 2 .mul ∧ WritesResult .mul (fun x y => x * y) ∧
  WritesResultAtEveryWidth .mul (fun x y => x * y) ∧ FaultsOnAddresses .mul

/-- R120 and R121: encoding, effect, faults of resolution; the same effect at every width, since 0 and 1 always fit. -/
def Obligations.ComparisonsWriteOneOrZero : Prop :=
  DecodesWithDest 7 .lt ∧ WritesResult .lt (fun x y => if x < y then 1 else 0) ∧ FaultsOnAddresses .lt ∧
  DecodesWithDest 8 .eq ∧ WritesResult .eq (fun x y => if x = y then 1 else 0) ∧ FaultsOnAddresses .eq ∧
  (∀ (width : Option Nat) (a b : Operand) (d : Target) (s : State),
    execAt width (.lt a b d) s = exec (.lt a b d) s ∧ execAt width (.eq a b d) s = exec (.eq a b d) s)

/-- R122: the boundary table, whichever modes deliver the two values. -/
def Obligations.ComparisonBoundaryTable : Prop :=
  ∀ (n : Int) (row : Int × Int × Int × Int),
    row ∈ [(n, n, 0, 1), (n - 1, n, 1, 0), (n + 1, n, 0, 0), (n, n - 1, 0, 0), (n, n + 1, 1, 0)] →
    ∀ (a b : Operand) (d : Target) (s : State) (p : Nat),
      rdVal s a = .ok row.1 → rdVal s b = .ok row.2.1 → wrAddr s d = .ok p →
        (∃ t, exec (.lt a b d) s = .next t ∧ t.mem.read p = row.2.2.1) ∧
        (∃ t, exec (.eq a b d) s = .next t ∧ t.mem.read p = row.2.2.2)

/-- R100: encoding; with an input, exactly the oldest is consumed and stored; with none the core pauses, nothing else
changes and a RUN in progress ends; a bad destination faults first, also with an empty queue. -/
def Obligations.InputStoresTheOldestOrPauses : Prop :=
  (∀ (w : Int) (o : Nat → Int), 0 ≤ w → w % 100 = 3 →
    decode w o =
      if BadDigits w then .error .invalidMode
      else if digit 2 w = 1 then .error .immediateWriteTarget
      else .ok (.inp (writeForm (digit 2 w) (o 1)) (modeOf (digit 3 w)) (modeOf (digit 4 w)))) ∧
  (∀ (d : Target) (u2 u3 : Mode) (s : State) (p : Nat) (v : Int) (rest : List Int),
    wrAddr s d = .ok p → s.inq = v :: rest →
      exec (.inp d u2 u3) s = .next { s with inq := rest, mem := s.mem.write p v, pc := s.pc + 2 }) ∧
  (∀ (d : Target) (u2 u3 : Mode) (s : State) (p : Nat), wrAddr s d = .ok p → s.inq = [] →
    exec (.inp d u2 u3) s = .next { s with runState := .paused } ∧
      (s.stopped = false → fetch s = .ok (.inp d u2 u3) → RunReturns s { s with runState := .paused })) ∧
  (∀ (d : Target) (u2 u3 : Mode) (s : State) (k : Int), wrAddr s d = .error ⟨.negativeAddress, k⟩ →
    exec (.inp d u2 u3) s = .next { s with runState := .faulted, faultCause := .negativeAddress, faultInfo := k })

/-- R101: encoding; the value goes to the back of `outq`; the fault of resolution. -/
def Obligations.OutputAppendsTheValue : Prop :=
  DecodesWithSource 4 .out ∧
  (∀ (a : Operand) (u2 u3 : Mode) (s : State) (x : Int), rdVal s a = .ok x →
    exec (.out a u2 u3) s = .next { s with outq := s.outq ++ [x], pc := s.pc + 2 }) ∧
  (∀ (a : Operand) (u2 u3 : Mode) (s : State) (k : Int), rdVal s a = .error ⟨.negativeAddress, k⟩ →
    exec (.out a u2 u3) s = .next { s with runState := .faulted, faultCause := .negativeAddress, faultInfo := k })

/-- R110 and R111: encoding; taken, taken to a negative target, not taken; faults of resolution, the target's also when
the jump would not be taken. -/
def Obligations.JumpsFollowTheirCondition : Prop :=
  DecodesAsJump 5 .jt ∧ JumpsWhen .jt (fun x => x ≠ 0) ∧
  DecodesAsJump 6 .jf ∧ JumpsWhen .jf (fun x => x = 0)

/-- R130: encoding; `rb` gains the operand's value, read with the old `rb`; at a finite width a sum that does not fit
raises `ValueOverflow`; the fault of resolution. -/
def Obligations.ArbAddsToTheRelativeBase : Prop :=
  DecodesWithSource 9 .arb ∧
  (∀ (a : Operand) (u2 u3 : Mode) (s : State) (x : Int), rdVal s a = .ok x →
    exec (.arb a u2 u3) s = .next { s with rb := s.rb + x, pc := s.pc + 2 }) ∧
  (∀ (width : Option Nat) (a : Operand) (u2 u3 : Mode) (s : State) (x : Int), rdVal s a = .ok x →
    (fits width (s.rb + x) = true →
      execAt width (.arb a u2 u3) s = .next { s with rb := s.rb + x, pc := s.pc + 2 }) ∧
    (fits width (s.rb + x) = false →
      execAt width (.arb a u2 u3) s =
        .next { s with runState := .faulted, faultCause := .valueOverflow, faultInfo := s.rb + x })) ∧
  (∀ (a : Operand) (u2 u3 : Mode) (s : State) (k : Int), rdVal s a = .error ⟨.negativeAddress, k⟩ →
    exec (.arb a u2 u3) s = .next { s with runState := .faulted, faultCause := .negativeAddress, faultInfo := k })

/-- 46_halt.md R135: every legal HLT word decodes to HLT, which halts in every state and changes nothing else. That the
pc advances by 1 is the spec's decision D13. -/
def Obligations.HltHalts : Prop :=
  (∀ (w : Int) (o : Nat → Int), 0 ≤ w → w % 100 = 99 →
    decode w o =
      if BadDigits w then .error .invalidMode
      else .ok (.hlt (modeOf (digit 2 w)) (modeOf (digit 3 w)) (modeOf (digit 4 w)))) ∧
  (∀ (u1 u2 u3 : Mode) (s : State),
    exec (.hlt u1 u2 u3) s = .next { s with runState := .halted, pc := s.pc + 1 })

/-- The frame of the storing instructions ADD, MUL, LT, EQ and IN, whenever exec gives a next state (completion, pause or
fault taken): `rb` and `outq` are unchanged; `inq` is unchanged but for IN, which at most drops the oldest; the
fault registers change only by taking a fault; memory is unchanged outside the one cell at `wrAddr s d`, and
everywhere if the destination does not resolve (20_memory.md R35, R36). -/
def Obligations.FrameOfStoringInstructions : Prop :=
  ∀ (i : Instr) (d : Target) (s t : State), i.dest = some d → exec i s = .next t →
    t.rb = s.rb ∧ t.outq = s.outq ∧
    (i.op ≠ .inp → t.inq = s.inq) ∧ (i.op = .inp → t.inq = s.inq ∨ t.inq = s.inq.tail) ∧
    (t.runState = s.runState ∨ t.runState = .faulted ∨ (i.op = .inp ∧ t.runState = .paused)) ∧
    (t.faultCause = s.faultCause ∧ t.faultInfo = s.faultInfo ∨ t.runState = .faulted) ∧
    (∀ p, wrAddr s d = .ok p → ∀ a, a ≠ p → t.mem.read a = s.mem.read a) ∧
    (∀ e, wrAddr s d = .error e → ∀ a, t.mem.read a = s.mem.read a)

/-- The frame of the instructions that store nothing, OUT, JT, JF, ARB and HLT: every address reads as before; `inq` is
unchanged; `outq` but for OUT, `rb` but for ARB, the run state but for HLT and a fault taken, the fault registers but
for a fault taken (20_memory.md R36). -/
def Obligations.FrameOfNonStoringInstructions : Prop :=
  ∀ (i : Instr) (s t : State), i.dest = none → exec i s = .next t →
    (∀ a, t.mem.read a = s.mem.read a) ∧ t.inq = s.inq ∧
    (i.op ≠ .out → t.outq = s.outq) ∧ (i.op ≠ .arb → t.rb = s.rb) ∧
    (t.runState = s.runState ∨ t.runState = .faulted ∨ (i.op = .hlt ∧ t.runState = .halted)) ∧
    (t.faultCause = s.faultCause ∧ t.faultInfo = s.faultInfo ∨ t.runState = .faulted)

/-- R72 (marked "derived" in the spec): on a core that is not stopped a step gives a next state, by exactly one of four
outcomes; a completing step leaves the fault registers alone, the other three change what the table says and nothing else. That the pc advances by 1
after HLT is the spec's decision D13 (log entry 13). -/
def Obligations.StepHasOneOfFourOutcomes : Prop :=
  ∀ s : State, s.stopped = false → ∃ t, step s = .next t ∧
    match t.runState with
    | .running => ∃ i, fetch s = .ok i ∧ i.op ≠ .hlt ∧ (i.op = .inp → s.inq ≠ []) ∧
        t.faultCause = s.faultCause ∧ t.faultInfo = s.faultInfo
    | .halted => t = { s with runState := .halted, pc := s.pc + 1 } ∧ ∃ u1 u2 u3, fetch s = .ok (.hlt u1 u2 u3)
    | .paused => t = { s with runState := .paused } ∧ StarvedAtPc s
    | .faulted => ∃ c v, c ≠ .noFault ∧ t = { s with runState := .faulted, faultCause := c, faultInfo := v }

/-- R80: a completed step writes the pc once, to the next sequential instruction by the length of the opcode decoded, or
to the target of a taken jump; a step that pauses or faults does not write it. That this holds of HLT too, whose pc advances
by 1, is the spec's decision D13 (log entry 13). -/
def Obligations.ProgramCounterFollowsTheRule : Prop :=
  Op.all.map (fun op => (op.code, op.length)) =
    [(1, 4), (2, 4), (3, 2), (4, 2), (5, 3), (6, 3), (7, 4), (8, 4), (9, 2), (99, 1)] ∧
  (∀ (s t : State) (i : Instr), s.stopped = false → fetch s = .ok i → step s = .next t →
    (t.runState = .running ∨ t.runState = .halted →
      (t.pc : Int) = (jumpTarget s i).getD ((s.pc : Int) + i.op.length)) ∧
    (t.runState = .paused ∨ t.runState = .faulted → t.pc = s.pc)) ∧
  (∀ (s t : State) (e : Trap), s.stopped = false → fetch s = .error e → step s = .next t → t.pc = s.pc)

/-- 40_execution_cycle.md R79 and 60_exceptions.md R174, by the spec's decisions D6 to D8: a step that faults changes the
run state and the two fault registers and nothing else, and the info of cause 4 is negative, of causes 1 to 3 the
instruction word. At this hardware's width cause 5 is never raised (R84). -/
def Obligations.FaultsArePrecise : Prop :=
  ∀ s t : State, s.stopped = false → step s = .next t → t.runState = .faulted →
    t = { s with runState := .faulted, faultCause := t.faultCause, faultInfo := t.faultInfo } ∧
    (t.faultCause = .invalidOpcode ∨ t.faultCause = .invalidMode ∨ t.faultCause = .immediateWriteTarget →
      t.faultInfo = s.mem.read s.pc) ∧
    (t.faultCause = .negativeAddress → t.faultInfo < 0) ∧
    t.faultCause ≠ .noFault ∧ t.faultCause ≠ .valueOverflow

/-- R176: a step pauses exactly when the instruction at the pc is an IN that resolves and finds `inq` empty; then
nothing but the run state changes, and a RUN in progress returns. -/
def Obligations.OnlyAStarvedInPauses : Prop :=
  ∀ s t : State, s.stopped = false → step s = .next t →
    (t.runState = .paused ↔ StarvedAtPc s) ∧
    (t.runState = .paused → t = { s with runState := .paused } ∧ RunReturns s t)

/-- R177: a paused core executes whatever stands at the unchanged pc when a command resumes it, also after the host
rewrote it; nothing but a command or a RESET ends the pause; an input fed meanwhile leaves the core in the state a
never-starved step would have reached, and is consumed; with no input it pauses again with no net change. -/
def Obligations.PausedCoreResumesAtTheSameInstruction : Prop :=
  (∀ (s : State) (i : Instr), s.runState = .paused → HoldsAtPc s i → step s = exec i { s with runState := .running }) ∧
  (∀ s t : State, s.runState = .paused → (RunReturns s t ↔ RunReturns { s with runState := .running } t)) ∧
  (∀ (s t : State) (q : Request) (r : Reply), s.runState = .paused → request q s = .next (t, r) →
    q ≠ .step → (∀ p, q ≠ .reset p) → t.runState = .paused ∧ t.pc = s.pc) ∧
  (∀ s t : State, s.stopped = false → step s = .next t → t.runState = .paused →
    step t = .next t ∧
    ∀ v, step { t with inq := t.inq ++ [v] } = step { s with inq := s.inq ++ [v] } ∧
      ∃ u, step { t with inq := t.inq ++ [v] } = .next u ∧ u.runState = .running ∧ u.inq = [] ∧ u.pc = s.pc + 2)

/-- R175, and for `Halted` 10_state.md section 6: `Faulted` and `Halted` are final. STEP and RUN change nothing, no transaction but RESET
changes the run state or a fault register, the ports still answer, and RESET leaves. -/
def Obligations.StoppedCoreStaysStopped : Prop :=
  ∀ s : State, s.runState = .faulted ∨ s.runState = .halted →
    step s = .next s ∧ (∀ t, RunReturns s t ↔ t = s) ∧
    (∀ q t r, request q s = .next (t, r) → (∀ p, q ≠ .reset p) →
      t.runState = s.runState ∧ t.faultCause = s.faultCause ∧ t.faultInfo = s.faultInfo ∧ t.pc = s.pc ∧ t.rb = s.rb) ∧
    (∀ q : Request, q.inDomain Config.valueBits = true → ∃ t r, request q s = .next (t, r)) ∧
    (∀ p, ∃ t, request (.reset p) s = .next (t, .none) ∧ t.runState = .running)

/-- R13: `rb` is 0 at first and is changed by ARB alone; no other instruction, no host transaction (RESET, which makes it
0 again, apart) and no fault changes it; it may be negative, and only a negative sum at its use faults. -/
def Obligations.OnlyArbChangesTheRelativeBase : Prop :=
  (∀ p, (State.load p).rb = 0) ∧
  (∀ s t : State, step s = .next t → t.rb ≠ s.rb →
    ∃ a u2 u3 x, fetch s = .ok (.arb a u2 u3) ∧ rdVal s a = .ok x ∧ t.rb = s.rb + x) ∧
  (∀ (q : Request) (s t : State) (r : Reply), request q s = .next (t, r) → q ≠ .step → (∀ p, q ≠ .reset p) →
    t.rb = s.rb) ∧
  (∀ (s : State) (n : Int), 0 ≤ s.rb + n →
    rdVal s (.relative n) = .ok (s.mem.read (s.rb + n).toNat) ∧ wrAddr s (.relative n) = .ok (s.rb + n).toNat) ∧
  (∀ (s : State) (n : Int), s.rb + n < 0 →
    rdVal s (.relative n) = .error ⟨.negativeAddress, s.rb + n⟩ ∧
      wrAddr s (.relative n) = .error ⟨.negativeAddress, s.rb + n⟩) ∧
  (∀ (s : State) (x : Int) (u2 u3 : Mode), ∃ t,
    exec (.arb (.immediate x) u2 u3) s = .next t ∧ t.runState = s.runState ∧ t.rb = s.rb + x)

/-- 42_io.md R103 (marked "derived" in the spec) for the input side: over any session without RESET the input queue is
what was queued at first followed by what the host added, in that order, less some number of the oldest. -/
def Obligations.InputQueueIsFirstInFirstOut : Prop :=
  ∀ (l : List (Transaction × Reply)) (s t : State), NoReset l → Session s l t →
    ∃ k, t.inq = (s.inq ++ addedInputs l).drop k

/-- R103 for the output side: over any session without RESET and pops the outputs queued at first stay at the front, in
order, and later ones follow. -/
def Obligations.OutputQueueKeepsItsOrder : Prop :=
  ∀ (l : List (Transaction × Reply)) (s t : State), NoReset l → NoPop l → Session s l t →
    ∃ later, t.outq = s.outq ++ later

/-- 10_state.md R22 and 70_reset_and_hazards.md R200: the state after RESET(P), whatever the state before; the fault
registers' values are the spec's decision D7, that a second RESET discards all state is its decision D21. The model's
reset state is RESET of the empty program (log entry 5). -/
def Obligations.ResetLeavesTheListedState : Prop :=
  State.reset = State.load [] ∧
  ∀ (p : List Int) (s : State), ∃ t, request (.reset p) s = .next (t, .none) ∧
    (∀ a, t.mem.read a = p.getD a 0) ∧ t.pc = 0 ∧ t.rb = 0 ∧ t.inq = [] ∧ t.outq = [] ∧
    t.runState = .running ∧ t.faultCause.code = 0 ∧ t.faultInfo = 0

/-- 10_state.md R24: the invariant holds after RESET of every program of values, and at the model's reset state. -/
def Obligations.ResetMeetsTheInvariant : Prop :=
  State.reset.Inv ∧
  ∀ (width : Option Nat) (p : List Int), Config.legalWidth width = true → p.all (fits width) = true →
    (State.load p).InvAt width

/-- R24 (marked "derived" in the spec): from every state with the invariant, a step gives a state with it. -/
def Obligations.StepKeepsTheInvariant : Prop :=
  ∀ s t : State, s.Inv → step s = .next t → t.Inv

/-- R24 at every VALUE_BITS the spec allows (00_scope.md R5, decision D1): there (b) says that ADD, MUL and ARB never let
a value out of range into the state. -/
def Obligations.StepAtEveryWidthKeepsTheInvariant : Prop :=
  ∀ (width : Option Nat) (s t : State), Config.legalWidth width = true → s.InvAt width → stepAt width s = .next t →
    t.InvAt width

/-- R24: every session of transactions, RUN included, keeps the invariant. -/
def Obligations.SessionKeepsTheInvariant : Prop :=
  ∀ (l : List (Transaction × Reply)) (s t : State), s.Inv → Session s l t → t.Inv

/-- Log entry 2, the model's own convention: two memories in canonical form that read alike everywhere are the same
list, so that states can be compared. -/
def Obligations.CanonicalMemoriesThatReadAlikeAreEqual : Prop :=
  ∀ m n : Memory, m.wf → n.wf → (∀ a, m.read a = n.read a) → m = n

/-- R34: a read returns the value last written to the cell by reset or a later write, and 0 if none wrote it. -/
def Obligations.ReadReturnsTheLastWrite : Prop :=
  ∀ (p : List Int) (writes : List (Nat × Int)) (a : Nat),
    (writes.foldl (fun m w => m.write w.1 w.2) (State.load p).mem).read a =
      match writes.reverse.find? fun w => w.1 = a with
      | some w => w.2
      | none => p.getD a 0

/-- R150: ADD_INPUT appends, always succeeds, in every run state, and changes nothing else. -/
def Obligations.AddInputAppends : Prop :=
  ∀ (v : Int) (s : State), request (.addInput v) s = .next ({ s with inq := s.inq ++ [v] }, .none)

/-- R151, R152 and R153: the output ports on an empty queue and on one with a front and a back. -/
def Obligations.OutputPortsTakeFromEitherEnd : Prop :=
  ∀ s : State,
    request .hasOutput s = .next (s, .flag (decide (s.outq ≠ []))) ∧
    (s.outq = [] → request .popOutputFront s = .next (s, .popped none) ∧
      request .popOutputBack s = .next (s, .popped none)) ∧
    (∀ v rest, s.outq = v :: rest →
      request .popOutputFront s = .next ({ s with outq := rest }, .popped (some v))) ∧
    (∀ v rest, s.outq = rest ++ [v] →
      request .popOutputBack s = .next ({ s with outq := rest }, .popped (some v)))

/-- R158 and R159: READ_MEM answers the cell and changes nothing, on a freshly reset core `P[i]` or 0; WRITE_MEM replaces
one cell by any value, changes nothing else, in every run state; the next fetch decodes the patched cell, be it the word
at the pc or an operand cell, and the next step executes what that fetch gives; a stopped core is not restarted. -/
def Obligations.MemoryPortsReadAndPatchOneCell : Prop :=
  ∀ (a : Nat) (s : State),
    request (.readMem a) s = .next (s, .value (s.mem.read a)) ∧
    (∀ p, request (.readMem a) (State.load p) = .next (State.load p, .value (p.getD a 0))) ∧
    (∀ v, ∃ t, request (.writeMem a v) s = .next (t, .none) ∧ t = { s with mem := t.mem } ∧
      (∀ b, t.mem.read b = patched s.mem a v b) ∧
      (fetch t = match decode (patched s.mem a v s.pc) (fun k => patched s.mem a v (s.pc + k)) with
        | .ok i => .ok i
        | .error e => .error ⟨decodeCause e, patched s.mem a v s.pc⟩) ∧
      (s.stopped = false →
        (∀ i, fetch t = .ok i → step t = exec i { t with runState := .running }) ∧
        (∀ e, fetch t = .error e →
          step t = .next { t with runState := .faulted, faultCause := e.cause, faultInfo := e.info })) ∧
      (s.stopped = true → step t = .next t))

/-- R160 and R161: the two status ports of the source. IS_AWAITING_INPUT does not look at `inq`. -/
def Obligations.StatusPortsTellTheRunState : Prop :=
  ∀ s : State,
    request .isFinished s = .next (s, .flag (decide (s.runState = .halted))) ∧
    request .isAwaitingInput s = .next (s, .flag (decide (s.runState = .paused))) ∧
    (∀ v, ∃ t, request (.addInput v) s = .next (t, .none) ∧
      request .isAwaitingInput t = .next (t, .flag (decide (s.runState = .paused))))

/-- 47_host_operations.md R162 and R154: the spec's own ports IS_FAULTED and FAULT_STATUS (its decision D25), and
PEEK_ALL_OUTPUT, oldest first (its decision D16). -/
def Obligations.FaultAndPeekPortsReadTheState : Prop :=
  ∀ s : State,
    request .isFaulted s = .next (s, .flag (decide (s.runState = .faulted))) ∧
    request .faultStatus s = .next (s, .status s.faultCause s.faultInfo) ∧
    request .peekAllOutput s = .next (s, .values s.outq)

/-- 47_host_operations.md R142, by the spec's decision D20: a transaction is refused exactly when an argument is outside
its domain, at every width; on this hardware that is a negative address and nothing else. -/
def Obligations.OutOfDomainArgumentsAreRefused : Prop :=
  (∀ (width : Option Nat) (q : Request) (s : State),
    (q.inDomain width = false ↔ answer width (stepAt width) q s = .refused .hostArgument) ∧
    (q.inDomain width = true → ∃ t r, answer width (stepAt width) q s = .next (t, r))) ∧
  (∀ (q : Request) (s : State), request q s = answer none (stepAt none) q s ∧
    (request q s = .refused .hostArgument ↔
      ∃ a, a < 0 ∧ (q = .readMem a ∨ ∃ v, q = .writeMem a v)))

/-- R147: RUN on a stopped core returns at once; on any other it returns the first state, among those reached by one STEP
after another, that is not `Running`; so it never returns `Running`; it returns at most one state; and a RUN of a
paused core with no input has no net effect. -/
def Obligations.RunIsStepUntilNotRunning : Prop :=
  (∀ s t : State, s.stopped = true → (RunReturns s t ↔ t = s)) ∧
  (∀ s t : State, s.stopped = false →
    (RunReturns s t ↔
      ∃ n, core.run (n + 1) s = .next t ∧ t.runState ≠ .running ∧
        ∀ m, m < n → ∃ u : State, core.run (m + 1) s = .next u ∧ u.runState = .running)) ∧
  (∀ s t : State, RunReturns s t → t.runState ≠ .running) ∧
  (∀ s t u : State, RunReturns s t → RunReturns s u → t = u) ∧
  (∀ s : State, s.runState = .paused → StarvedAtPc s → ∀ t, RunReturns s t ↔ t = s)

/-- 47_host_operations.md R149: a taken jump to its own address is a loop the core does not detect; each STEP returns
`Running` with nothing changed, and RUN returns for no state. -/
def Obligations.RunOfASelfJumpNeverReturns : Prop :=
  ∀ (s : State) (a t : Operand) (u : Mode) (x : Int), s.stopped = false →
    (fetch s = .ok (.jt a t u) ∧ x ≠ 0 ∨ fetch s = .ok (.jf a t u) ∧ x = 0) →
    rdVal s a = .ok x → rdVal s t = .ok (s.pc : Int) →
      step s = .next { s with runState := .running } ∧ ∀ v, ¬ RunReturns s v

/-- 46_halt.md R135 (d) and 93_implementation_defined.md U8: no session of transactions on a halted core can tell what
its pc is; two halted states that differ only there answer alike for ever. -/
def Obligations.HaltedProgramCounterIsUnobservable : Prop :=
  ∀ (l : List (Transaction × Reply)) (s t s' : State), s.runState = .halted → SameButPc s t → Session s l s' →
    ∃ t', Session t l t' ∧ SameButPc s' t'

/-- 92_eei_decisions.md D1 and 40_execution_cycle.md R84: the machine of any width, as long as it raises no
`ValueOverflow`, runs step for step as this hardware; and this hardware is the machine of width `inf`. -/
def Obligations.NarrowMachineAgreesUntilItOverflows : Prop :=
  (∀ (width : Option Nat) (n : Nat) (s t : State), (coreAt width).run n s = .next t →
    t.faultCause ≠ .valueOverflow → core.run n s = .next t) ∧
  (∀ s : State, step s = stepAt none s) ∧
  (∀ (width : Option Nat) (s t : State), s.stopped = false → stepAt width s = .next t →
    t.faultCause = .valueOverflow → s.faultCause ≠ .valueOverflow → fits width t.faultInfo = false)

/-- 60_exceptions.md R180 (marked "derived" in the spec), every row: which step events lead to `Halted`, `Paused`,
`Faulted` and `Running`, each in both directions; a paused core under STEP or RUN does what the running one does; a RUN of a
core that is not stopped is a step event and, while that leaves it `Running`, a RUN; `Halted` and `Faulted` answer STEP and
RUN with no change; RESET gives `Running` from any state, and every other port leaves the run state. -/
def Obligations.RunStateMachineIsTheTable : Prop :=
  (∀ s : State, s.stopped = false → ∃ t, step s = .next t ∧
    (t.runState = .running ↔ CompletesAtPc s) ∧
    (t.runState = .halted ↔ ∃ u1 u2 u3, fetch s = .ok (.hlt u1 u2 u3)) ∧
    (t.runState = .paused ↔ StarvedAtPc s) ∧
    (t.runState = .faulted ↔ FaultsAtPc s)) ∧
  (∀ s : State, s.runState = .paused → step s = step { s with runState := .running } ∧
    ∀ t, RunReturns s t ↔ RunReturns { s with runState := .running } t) ∧
  (∀ s t : State, s.stopped = false →
    (RunReturns s t ↔
      ∃ u, step s = .next u ∧ (u.runState = .running ∧ RunReturns u t ∨ u.runState ≠ .running ∧ t = u))) ∧
  (∀ s : State, s.stopped = true → step s = .next s ∧ ∀ t, RunReturns s t ↔ t = s) ∧
  (∀ (p : List Int) (s : State), ∃ t, request (.reset p) s = .next (t, .none) ∧ t.runState = .running) ∧
  (∀ (q : Request) (s t : State) (r : Reply), request q s = .next (t, r) → q ≠ .step → (∀ p, q ≠ .reset p) →
    t.runState = s.runState)
end

