-- ==== Sys2Proof/Laws/Decode.lean ====
section
/-! SUPPORT. The small lemmas of the decoder and the encoder's fields. -/

namespace Sys2Proof

@[simp] theorem Mode.ofDigit_digit (m : Mode) : Mode.ofDigit m.digit = some m := by cases m <;> rfl

theorem Mode.ofDigit_eq_some {d : Int} {m : Mode} (h : Mode.ofDigit d = some m) : d = m.digit := by
  unfold Mode.ofDigit at h
  split at h
  · cases h; assumption
  · split at h
    · cases h; assumption
    · split at h
      · cases h; assumption
      · cases h

@[simp] theorem Op.ofCode_code (op : Op) : Op.ofCode op.code = some op := by cases op <;> rfl

theorem Op.ofCode_eq_some {c : Int} {op : Op} (h : Op.ofCode c = some op) : c = op.code := by
  have := List.find?_some h
  simpa using (beq_iff_eq.mp this).symm

@[simp] theorem Operand.ofMode_mode (a : Operand) : Operand.ofMode a.mode a.word = a := by cases a <;> rfl

@[simp] theorem Target.ofMode_mode (d : Target) : Target.ofMode d.mode d.word = .ok d := by cases d <;> rfl

@[simp] theorem Operand.mode_ofMode (m : Mode) (n : Int) : (Operand.ofMode m n).mode = m := by cases m <;> rfl

@[simp] theorem Operand.word_ofMode (m : Mode) (n : Int) : (Operand.ofMode m n).word = n := by cases m <;> rfl

theorem Target.ofMode_eq_ok {m : Mode} {n : Int} {d : Target} (h : Target.ofMode m n = .ok d) :
    d.mode = m ∧ d.word = n := by
  cases m <;> cases h <;> exact ⟨rfl, rfl⟩

theorem Mode.digit_range (m : Mode) : 0 ≤ m.digit ∧ m.digit ≤ 2 := by cases m <;> decide

theorem Op.code_range (op : Op) : 1 ≤ op.code ∧ op.code ≤ 99 := by cases op <;> decide

end Sys2Proof
end

