-- ==== Sys2Proof/Laws/Operands.lean ====
section
/-! SUPPORT. What resolving a parameter can answer, said once per operation. -/

namespace Sys2Proof.Machine

variable {s : State} {e : Trap}

theorem effAddr_ok_iff {a : Int} {p : Nat} : effAddr a = .ok p ↔ (p : Int) = a := by
  unfold effAddr
  split
  · constructor
    · simp
    · intro h; omega
  · constructor
    · intro h; cases h; omega
    · rintro rfl; simp

theorem effAddr_error_iff {a : Int} : effAddr a = .error e ↔ a < 0 ∧ e = ⟨.negativeAddress, a⟩ := by
  unfold effAddr
  split
  · constructor
    · intro h; cases h; exact ⟨‹_›, rfl⟩
    · rintro ⟨_, rfl⟩; rfl
  · constructor
    · simp
    · intro h; omega

/-- Resolving a read parameter can only fail on a negative address. -/
theorem rdVal_error {a : Operand} (h : rdVal s a = .error e) : e.cause = .negativeAddress ∧ e.info < 0 := by
  cases a with
  | immediate n => simp [rdVal] at h
  | position n =>
    cases he : effAddr n with
    | ok p => simp [rdVal, he, Except.map] at h
    | error e' =>
      obtain ⟨hn, rfl⟩ := effAddr_error_iff.mp he
      simp only [rdVal, he, Except.map, Except.error.injEq] at h
      subst h
      exact ⟨rfl, hn⟩
  | relative n =>
    cases he : effAddr (s.rb + n) with
    | ok p => simp [rdVal, he, Except.map] at h
    | error e' =>
      obtain ⟨hn, rfl⟩ := effAddr_error_iff.mp he
      simp only [rdVal, he, Except.map, Except.error.injEq] at h
      subst h
      exact ⟨rfl, hn⟩

/-- Resolving a write parameter can only fail on a negative address. -/
theorem wrAddr_error {d : Target} (h : wrAddr s d = .error e) : e.cause = .negativeAddress ∧ e.info < 0 := by
  cases d <;> (obtain ⟨hn, rfl⟩ := effAddr_error_iff.mp h; exact ⟨rfl, hn⟩)

/-- A read parameter's value is its literal or the content of some cell. -/
theorem rdVal_ok {a : Operand} {x : Int} (h : rdVal s a = .ok x) :
    a = .immediate x ∨ ∃ p, x = s.mem.read p := by
  cases a with
  | immediate n => exact .inl (by simpa [rdVal] using h)
  | position n =>
    cases he : effAddr n with
    | error e' => simp [rdVal, he, Except.map] at h
    | ok p =>
      simp only [rdVal, he, Except.map, Except.ok.injEq] at h
      exact .inr ⟨p, h.symm⟩
  | relative n =>
    cases he : effAddr (s.rb + n) with
    | error e' => simp [rdVal, he, Except.map] at h
    | ok p =>
      simp only [rdVal, he, Except.map, Except.ok.injEq] at h
      exact .inr ⟨p, h.symm⟩

/-- The range check passes the value on or raises `ValueOverflow` with it (R84). -/
theorem checkFits_ok_iff {width : Option Nat} {v w : Int} :
    checkFits width v = .ok w ↔ fits width v = true ∧ w = v := by
  unfold checkFits
  split
  · simp [*, eq_comm]
  · simp [*]

theorem checkFits_error_iff {width : Option Nat} {v : Int} :
    checkFits width v = .error e ↔ fits width v = false ∧ e = ⟨.valueOverflow, v⟩ := by
  unfold checkFits
  split
  · simp [*]
  · simp [*, eq_comm]

@[simp] theorem checkFits_none (v : Int) : checkFits none v = .ok v := rfl

end Sys2Proof.Machine
end

