-- ==== Sys2Proof/Laws/State.lean ====
section
/-! SUPPORT. One lemma per field per update of the state, so that no proof unfolds a record update. -/

namespace Sys2Proof.Machine

variable (s : State)

@[simp] theorem State.store_mem (a : Nat) (v : Int) : (s.store a v).mem = s.mem.write a v := rfl
@[simp] theorem State.store_pc (a : Nat) (v : Int) : (s.store a v).pc = s.pc := rfl
@[simp] theorem State.store_rb (a : Nat) (v : Int) : (s.store a v).rb = s.rb := rfl
@[simp] theorem State.store_inq (a : Nat) (v : Int) : (s.store a v).inq = s.inq := rfl
@[simp] theorem State.store_outq (a : Nat) (v : Int) : (s.store a v).outq = s.outq := rfl
@[simp] theorem State.store_runState (a : Nat) (v : Int) : (s.store a v).runState = s.runState := rfl
@[simp] theorem State.store_faultCause (a : Nat) (v : Int) : (s.store a v).faultCause = s.faultCause := rfl
@[simp] theorem State.store_faultInfo (a : Nat) (v : Int) : (s.store a v).faultInfo = s.faultInfo := rfl

@[simp] theorem State.goto_mem (a : Nat) : (s.goto a).mem = s.mem := rfl
@[simp] theorem State.goto_pc (a : Nat) : (s.goto a).pc = a := rfl
@[simp] theorem State.goto_rb (a : Nat) : (s.goto a).rb = s.rb := rfl
@[simp] theorem State.goto_inq (a : Nat) : (s.goto a).inq = s.inq := rfl
@[simp] theorem State.goto_outq (a : Nat) : (s.goto a).outq = s.outq := rfl
@[simp] theorem State.goto_runState (a : Nat) : (s.goto a).runState = s.runState := rfl
@[simp] theorem State.goto_faultCause (a : Nat) : (s.goto a).faultCause = s.faultCause := rfl
@[simp] theorem State.goto_faultInfo (a : Nat) : (s.goto a).faultInfo = s.faultInfo := rfl

@[simp] theorem State.advance_mem (n : Nat) : (s.advance n).mem = s.mem := rfl
@[simp] theorem State.advance_pc (n : Nat) : (s.advance n).pc = s.pc + n := rfl
@[simp] theorem State.advance_rb (n : Nat) : (s.advance n).rb = s.rb := rfl
@[simp] theorem State.advance_inq (n : Nat) : (s.advance n).inq = s.inq := rfl
@[simp] theorem State.advance_outq (n : Nat) : (s.advance n).outq = s.outq := rfl
@[simp] theorem State.advance_runState (n : Nat) : (s.advance n).runState = s.runState := rfl
@[simp] theorem State.advance_faultCause (n : Nat) : (s.advance n).faultCause = s.faultCause := rfl
@[simp] theorem State.advance_faultInfo (n : Nat) : (s.advance n).faultInfo = s.faultInfo := rfl

@[simp] theorem State.setRb_mem (v : Int) : (s.setRb v).mem = s.mem := rfl
@[simp] theorem State.setRb_pc (v : Int) : (s.setRb v).pc = s.pc := rfl
@[simp] theorem State.setRb_rb (v : Int) : (s.setRb v).rb = v := rfl
@[simp] theorem State.setRb_inq (v : Int) : (s.setRb v).inq = s.inq := rfl
@[simp] theorem State.setRb_outq (v : Int) : (s.setRb v).outq = s.outq := rfl
@[simp] theorem State.setRb_runState (v : Int) : (s.setRb v).runState = s.runState := rfl
@[simp] theorem State.setRb_faultCause (v : Int) : (s.setRb v).faultCause = s.faultCause := rfl
@[simp] theorem State.setRb_faultInfo (v : Int) : (s.setRb v).faultInfo = s.faultInfo := rfl

@[simp] theorem State.setInq_mem (q : List Int) : (s.setInq q).mem = s.mem := rfl
@[simp] theorem State.setInq_pc (q : List Int) : (s.setInq q).pc = s.pc := rfl
@[simp] theorem State.setInq_rb (q : List Int) : (s.setInq q).rb = s.rb := rfl
@[simp] theorem State.setInq_inq (q : List Int) : (s.setInq q).inq = q := rfl
@[simp] theorem State.setInq_outq (q : List Int) : (s.setInq q).outq = s.outq := rfl
@[simp] theorem State.setInq_runState (q : List Int) : (s.setInq q).runState = s.runState := rfl
@[simp] theorem State.setInq_faultCause (q : List Int) : (s.setInq q).faultCause = s.faultCause := rfl
@[simp] theorem State.setInq_faultInfo (q : List Int) : (s.setInq q).faultInfo = s.faultInfo := rfl

@[simp] theorem State.setOutq_mem (q : List Int) : (s.setOutq q).mem = s.mem := rfl
@[simp] theorem State.setOutq_pc (q : List Int) : (s.setOutq q).pc = s.pc := rfl
@[simp] theorem State.setOutq_rb (q : List Int) : (s.setOutq q).rb = s.rb := rfl
@[simp] theorem State.setOutq_inq (q : List Int) : (s.setOutq q).inq = s.inq := rfl
@[simp] theorem State.setOutq_outq (q : List Int) : (s.setOutq q).outq = q := rfl
@[simp] theorem State.setOutq_runState (q : List Int) : (s.setOutq q).runState = s.runState := rfl
@[simp] theorem State.setOutq_faultCause (q : List Int) : (s.setOutq q).faultCause = s.faultCause := rfl
@[simp] theorem State.setOutq_faultInfo (q : List Int) : (s.setOutq q).faultInfo = s.faultInfo := rfl

@[simp] theorem State.setRunState_mem (r : RunState) : (s.setRunState r).mem = s.mem := rfl
@[simp] theorem State.setRunState_pc (r : RunState) : (s.setRunState r).pc = s.pc := rfl
@[simp] theorem State.setRunState_rb (r : RunState) : (s.setRunState r).rb = s.rb := rfl
@[simp] theorem State.setRunState_inq (r : RunState) : (s.setRunState r).inq = s.inq := rfl
@[simp] theorem State.setRunState_outq (r : RunState) : (s.setRunState r).outq = s.outq := rfl
@[simp] theorem State.setRunState_runState (r : RunState) : (s.setRunState r).runState = r := rfl
@[simp] theorem State.setRunState_faultCause (r : RunState) : (s.setRunState r).faultCause = s.faultCause := rfl
@[simp] theorem State.setRunState_faultInfo (r : RunState) : (s.setRunState r).faultInfo = s.faultInfo := rfl

@[simp] theorem State.enterFault_mem (e : Trap) : (s.enterFault e).mem = s.mem := rfl
@[simp] theorem State.enterFault_pc (e : Trap) : (s.enterFault e).pc = s.pc := rfl
@[simp] theorem State.enterFault_rb (e : Trap) : (s.enterFault e).rb = s.rb := rfl
@[simp] theorem State.enterFault_inq (e : Trap) : (s.enterFault e).inq = s.inq := rfl
@[simp] theorem State.enterFault_outq (e : Trap) : (s.enterFault e).outq = s.outq := rfl
@[simp] theorem State.enterFault_runState (e : Trap) : (s.enterFault e).runState = .faulted := rfl
@[simp] theorem State.enterFault_faultCause (e : Trap) : (s.enterFault e).faultCause = e.cause := rfl
@[simp] theorem State.enterFault_faultInfo (e : Trap) : (s.enterFault e).faultInfo = e.info := rfl

@[simp] theorem State.pause_mem : (s.pause).mem = s.mem := rfl
@[simp] theorem State.pause_pc : (s.pause).pc = s.pc := rfl
@[simp] theorem State.pause_rb : (s.pause).rb = s.rb := rfl
@[simp] theorem State.pause_inq : (s.pause).inq = s.inq := rfl
@[simp] theorem State.pause_outq : (s.pause).outq = s.outq := rfl
@[simp] theorem State.pause_runState : (s.pause).runState = .paused := rfl
@[simp] theorem State.pause_faultCause : (s.pause).faultCause = s.faultCause := rfl
@[simp] theorem State.pause_faultInfo : (s.pause).faultInfo = s.faultInfo := rfl

@[simp] theorem State.resume_mem : (s.resume).mem = s.mem := rfl
@[simp] theorem State.resume_pc : (s.resume).pc = s.pc := rfl
@[simp] theorem State.resume_rb : (s.resume).rb = s.rb := rfl
@[simp] theorem State.resume_inq : (s.resume).inq = s.inq := rfl
@[simp] theorem State.resume_outq : (s.resume).outq = s.outq := rfl
@[simp] theorem State.resume_runState : (s.resume).runState = .running := rfl
@[simp] theorem State.resume_faultCause : (s.resume).faultCause = s.faultCause := rfl
@[simp] theorem State.resume_faultInfo : (s.resume).faultInfo = s.faultInfo := rfl

end Sys2Proof.Machine
end

