-- ==== Sys2Proof/Laws/Exec.lean ====
section
/-! SUPPORT. What an execute stage can answer: always a next state, by one of the cases listed; provers cite these instead of unfolding a meaning. -/

namespace Sys2Proof.Machine

variable {s t : State}

/-- An execute stage never stops: it gives the new state or takes the fault. -/
theorem settle_next_iff {r : Except Trap State} :
    settle s r = .next t ↔ r = .ok t ∨ ∃ e, r = .error e ∧ t = s.enterFault e := by
  cases r with
  | ok u => simp [settle]
  | error e => simp [settle, eq_comm]

theorem settle_answers_next (r : Except Trap State) : ∃ t, settle s r = .next t := by
  cases r <;> exact ⟨_, rfl⟩

section Forward

variable {a b target : Operand} {dest : Target} {x y v : Int} {p : Nat} {e : Trap}
  {compute : Int → Int → Except Trap Int}

theorem storeBinary_completes (ha : rdVal s a = .ok x) (hb : rdVal s b = .ok y) (hd : wrAddr s dest = .ok p)
    (hv : compute x y = .ok v) : storeBinary compute a b dest s = .next ((s.store p v).advance 4) := by
  simp [storeBinary, ha, hb, hd, hv, settle, bind, Except.bind, pure, Except.pure]

theorem storeBinary_faults_first (ha : rdVal s a = .error e) :
    storeBinary compute a b dest s = .next (s.enterFault e) := by
  simp [storeBinary, ha, settle, bind, Except.bind]

theorem storeBinary_faults_second (ha : rdVal s a = .ok x) (hb : rdVal s b = .error e) :
    storeBinary compute a b dest s = .next (s.enterFault e) := by
  simp [storeBinary, ha, hb, settle, bind, Except.bind]

theorem storeBinary_faults_dest (ha : rdVal s a = .ok x) (hb : rdVal s b = .ok y) (hd : wrAddr s dest = .error e) :
    storeBinary compute a b dest s = .next (s.enterFault e) := by
  simp [storeBinary, ha, hb, hd, settle, bind, Except.bind]

theorem storeBinary_faults_result (ha : rdVal s a = .ok x) (hb : rdVal s b = .ok y) (hd : wrAddr s dest = .ok p)
    (hv : compute x y = .error e) : storeBinary compute a b dest s = .next (s.enterFault e) := by
  simp [storeBinary, ha, hb, hd, hv, settle, bind, Except.bind]

theorem execIn_faults (u2 u3 : Mode) (hd : wrAddr s dest = .error e) :
    execIn dest u2 u3 s = .next (s.enterFault e) := by
  simp [execIn, hd, settle, bind, Except.bind]

theorem execIn_pauses (u2 u3 : Mode) (hd : wrAddr s dest = .ok p) (hq : s.inq = []) :
    execIn dest u2 u3 s = .next s.pause := by
  simp [execIn, hd, hq, settle, bind, Except.bind, pure, Except.pure]

theorem execIn_completes {rest : List Int} (u2 u3 : Mode) (hd : wrAddr s dest = .ok p) (hq : s.inq = v :: rest) :
    execIn dest u2 u3 s = .next (((s.setInq rest).store p v).advance 2) := by
  simp [execIn, hd, hq, settle, bind, Except.bind, pure, Except.pure]

theorem execOut_faults (u2 u3 : Mode) (ha : rdVal s a = .error e) :
    execOut a u2 u3 s = .next (s.enterFault e) := by
  simp [execOut, ha, settle, bind, Except.bind]

theorem execOut_completes (u2 u3 : Mode) (ha : rdVal s a = .ok x) :
    execOut a u2 u3 s = .next ((s.setOutq (s.outq ++ [x])).advance 2) := by
  simp [execOut, ha, settle, bind, Except.bind, pure, Except.pure]

theorem execArbAt_faults {width : Option Nat} (ha : rdVal s a = .error e) :
    execArbAt width a s = .next (s.enterFault e) := by
  simp [execArbAt, ha, settle, bind, Except.bind]

theorem execArbAt_checks {width : Option Nat} (ha : rdVal s a = .ok x) :
    execArbAt width a s = settle s ((checkFits width (s.rb + x)).map fun v => (s.setRb v).advance 2) := by
  cases hv : checkFits width (s.rb + x) <;>
    simp [execArbAt, ha, hv, Except.map, bind, Except.bind, pure, Except.pure]

variable {condition : Int → Bool}

theorem jumpWhen_faults_first (ha : rdVal s a = .error e) :
    jumpWhen condition a target s = .next (s.enterFault e) := by
  simp [jumpWhen, ha, settle, bind, Except.bind]

theorem jumpWhen_faults_second (ha : rdVal s a = .ok x) (ht : rdVal s target = .error e) :
    jumpWhen condition a target s = .next (s.enterFault e) := by
  simp [jumpWhen, ha, ht, settle, bind, Except.bind]

theorem jumpWhen_not_taken (ha : rdVal s a = .ok x) (ht : rdVal s target = .ok y) (hc : condition x = false) :
    jumpWhen condition a target s = .next (s.advance 3) := by
  simp [jumpWhen, ha, ht, hc, settle, bind, Except.bind, pure, Except.pure]

theorem jumpWhen_taken (ha : rdVal s a = .ok x) (ht : rdVal s target = .ok y) (hc : condition x = true) :
    jumpWhen condition a target s = settle s ((effAddr y).map s.goto) := by
  cases hy : effAddr y <;>
    simp [jumpWhen, ha, ht, hc, hy, Except.map, bind, Except.bind, pure, Except.pure]

end Forward

/-- Everything `storeBinary` can do. -/
theorem storeBinary_cases {compute : Int → Int → Except Trap Int} {a b : Operand} {dest : Target}
    (h : storeBinary compute a b dest s = .next t) :
    (∃ x y p v, rdVal s a = .ok x ∧ rdVal s b = .ok y ∧ wrAddr s dest = .ok p ∧ compute x y = .ok v ∧
      t = (s.store p v).advance 4) ∨
    (∃ e, t = s.enterFault e ∧ (e.cause = .negativeAddress ∧ e.info < 0 ∨ ∃ x y, compute x y = .error e)) := by
  cases ha : rdVal s a with
  | error e =>
    rw [storeBinary_faults_first ha] at h
    cases h
    exact .inr ⟨e, rfl, .inl (rdVal_error ha)⟩
  | ok x =>
    cases hb : rdVal s b with
    | error e =>
      rw [storeBinary_faults_second ha hb] at h
      cases h
      exact .inr ⟨e, rfl, .inl (rdVal_error hb)⟩
    | ok y =>
      cases hd : wrAddr s dest with
      | error e =>
        rw [storeBinary_faults_dest ha hb hd] at h
        cases h
        exact .inr ⟨e, rfl, .inl (wrAddr_error hd)⟩
      | ok p =>
        cases hv : compute x y with
        | error e =>
          rw [storeBinary_faults_result ha hb hd hv] at h
          cases h
          exact .inr ⟨e, rfl, .inr ⟨x, y, hv⟩⟩
        | ok v =>
          rw [storeBinary_completes ha hb hd hv] at h
          cases h
          exact .inl ⟨x, y, p, v, rfl, rfl, rfl, hv, rfl⟩

/-- Everything IN can do. -/
theorem execIn_cases {dest : Target} (u2 u3 : Mode) (h : execIn dest u2 u3 s = .next t) :
    (∃ p v rest, wrAddr s dest = .ok p ∧ s.inq = v :: rest ∧ t = ((s.setInq rest).store p v).advance 2) ∨
    (∃ p, wrAddr s dest = .ok p ∧ s.inq = [] ∧ t = s.pause) ∨
    (∃ e, wrAddr s dest = .error e ∧ t = s.enterFault e) := by
  cases hd : wrAddr s dest with
  | error e =>
    rw [execIn_faults u2 u3 hd] at h
    cases h
    exact .inr (.inr ⟨e, rfl, rfl⟩)
  | ok p =>
    cases hq : s.inq with
    | nil =>
      rw [execIn_pauses u2 u3 hd hq] at h
      cases h
      exact .inr (.inl ⟨p, rfl, rfl, rfl⟩)
    | cons v rest =>
      rw [execIn_completes u2 u3 hd hq] at h
      cases h
      exact .inl ⟨p, v, rest, rfl, rfl, rfl⟩

/-- Everything OUT can do. -/
theorem execOut_cases {a : Operand} (u2 u3 : Mode) (h : execOut a u2 u3 s = .next t) :
    (∃ x, rdVal s a = .ok x ∧ t = (s.setOutq (s.outq ++ [x])).advance 2) ∨
    (∃ e, rdVal s a = .error e ∧ t = s.enterFault e) := by
  cases ha : rdVal s a with
  | error e =>
    rw [execOut_faults u2 u3 ha] at h
    cases h
    exact .inr ⟨e, rfl, rfl⟩
  | ok x =>
    rw [execOut_completes u2 u3 ha] at h
    cases h
    exact .inl ⟨x, rfl, rfl⟩

/-- Everything ARB can do. -/
theorem execArbAt_cases {width : Option Nat} {a : Operand} (h : execArbAt width a s = .next t) :
    (∃ x, rdVal s a = .ok x ∧ fits width (s.rb + x) = true ∧ t = (s.setRb (s.rb + x)).advance 2) ∨
    (∃ x, rdVal s a = .ok x ∧ fits width (s.rb + x) = false ∧ t = s.enterFault ⟨.valueOverflow, s.rb + x⟩) ∨
    (∃ e, rdVal s a = .error e ∧ t = s.enterFault e) := by
  cases ha : rdVal s a with
  | error e =>
    rw [execArbAt_faults ha] at h
    cases h
    exact .inr (.inr ⟨e, rfl, rfl⟩)
  | ok x =>
    rw [execArbAt_checks ha] at h
    cases hv : checkFits width (s.rb + x) with
    | ok v =>
      obtain ⟨hf, rfl⟩ := checkFits_ok_iff.mp hv
      rw [hv] at h
      cases h
      exact .inl ⟨x, rfl, hf, rfl⟩
    | error e =>
      obtain ⟨hf, rfl⟩ := checkFits_error_iff.mp hv
      rw [hv] at h
      cases h
      exact .inr (.inl ⟨x, rfl, hf, rfl⟩)

/-- Everything a conditional jump can do. -/
theorem jumpWhen_cases {condition : Int → Bool} {a target : Operand} (h : jumpWhen condition a target s = .next t) :
    (∃ x y, rdVal s a = .ok x ∧ rdVal s target = .ok y ∧ condition x = true ∧ 0 ≤ y ∧ t = s.goto y.toNat) ∨
    (∃ x y, rdVal s a = .ok x ∧ rdVal s target = .ok y ∧ condition x = false ∧ t = s.advance 3) ∨
    (∃ e, e.cause = .negativeAddress ∧ e.info < 0 ∧ t = s.enterFault e) := by
  cases ha : rdVal s a with
  | error e =>
    rw [jumpWhen_faults_first ha] at h
    cases h
    exact .inr (.inr ⟨e, (rdVal_error ha).1, (rdVal_error ha).2, rfl⟩)
  | ok x =>
    cases ht : rdVal s target with
    | error e =>
      rw [jumpWhen_faults_second ha ht] at h
      cases h
      exact .inr (.inr ⟨e, (rdVal_error ht).1, (rdVal_error ht).2, rfl⟩)
    | ok y =>
      cases hc : condition x with
      | false =>
        rw [jumpWhen_not_taken ha ht hc] at h
        cases h
        exact .inr (.inl ⟨x, y, rfl, rfl, hc, rfl⟩)
      | true =>
        rw [jumpWhen_taken ha ht hc] at h
        cases hy : effAddr y with
        | error e =>
          obtain ⟨hn, rfl⟩ := effAddr_error_iff.mp hy
          rw [hy] at h
          cases h
          exact .inr (.inr ⟨_, rfl, hn, rfl⟩)
        | ok p =>
          have hp := effAddr_ok_iff.mp hy
          rw [hy] at h
          cases h
          exact .inl ⟨x, y, rfl, rfl, hc, hp ▸ Int.natCast_nonneg p, by rw [← hp]; simp⟩

/-- The execute stage at this hardware's width is the machine's own. -/
theorem execAt_none (i : Instr) (s : State) : execAt none i s = exec i s := by
  cases i <;> rfl

/-- Every instruction answers a next state, in every state and at every width. -/
theorem execAt_answers_next (width : Option Nat) (i : Instr) (s : State) : ∃ t, execAt width i s = .next t := by
  cases i <;> first | exact settle_answers_next _ | exact ⟨_, rfl⟩

theorem exec_answers_next (i : Instr) (s : State) : ∃ t, exec i s = .next t :=
  execAt_none i s ▸ execAt_answers_next none i s

end Sys2Proof.Machine
end

