-- ==== Sys2Proof/Laws/Memory.lean ====
section
/-! SUPPORT. The laws of memory: reads after writes, and that every operation keeps the canonical form. -/

namespace Sys2Proof.Machine

variable {m : Memory} {a b : Nat} {v : Int}

theorem Memory.read_nil : Memory.read [] a = 0 := rfl

theorem Memory.read_cons (k : Nat) (x : Int) :
    Memory.read ((k, x) :: m) a = if k = a then x else m.read a := rfl

theorem Memory.read_erase_same : (m.erase a).read a = 0 := by
  induction m with
  | nil => rfl
  | cons c m ih =>
    obtain ⟨k, x⟩ := c
    by_cases h : k = a
    · simpa [Memory.erase, h] using ih
    · simpa [Memory.erase, h, Memory.read_cons] using ih

theorem Memory.read_erase_other (h : b ≠ a) : (m.erase a).read b = m.read b := by
  induction m with
  | nil => rfl
  | cons c m ih =>
    obtain ⟨k, x⟩ := c
    by_cases hk : k = a
    · subst hk
      simpa [Memory.erase, Memory.read_cons, Ne.symm h] using ih
    · have keep : Memory.erase ((k, x) :: m) a = (k, x) :: Memory.erase m a := by simp [Memory.erase, hk]
      rw [keep, Memory.read_cons, Memory.read_cons, ih]

theorem Memory.read_insert_same : (m.insert a v).read a = v := by
  induction m with
  | nil => simp [Memory.insert, Memory.read_cons]
  | cons c m ih =>
    obtain ⟨k, x⟩ := c
    by_cases h1 : a < k
    · simp [Memory.insert, h1, Memory.read_cons]
    · by_cases h2 : a = k
      · simp [Memory.insert, h2, Memory.read_cons]
      · simpa [Memory.insert, h1, h2, Memory.read_cons, Ne.symm h2] using ih

theorem Memory.read_insert_other (h : b ≠ a) : (m.insert a v).read b = m.read b := by
  induction m with
  | nil => simp [Memory.insert, Memory.read_cons, Ne.symm h]
  | cons c m ih =>
    obtain ⟨k, x⟩ := c
    by_cases h1 : a < k
    · simp [Memory.insert, h1, Memory.read_cons, Ne.symm h]
    · by_cases h2 : a = k
      · subst h2
        simp [Memory.insert, Memory.read_cons, Ne.symm h]
      · simp [Memory.insert, h1, h2, Memory.read_cons, ih]

/-- R34: a read of the cell just written gives the value written. -/
@[simp] theorem Memory.read_write_same : (m.write a v).read a = v := by
  by_cases h : v = unwritten
  · simp [Memory.write, h, Memory.read_erase_same, unwritten]
  · simp [Memory.write, h, Memory.read_insert_same]

/-- R35: a write leaves every other cell alone. -/
theorem Memory.read_write_other (h : b ≠ a) : (m.write a v).read b = m.read b := by
  by_cases hv : v = unwritten
  · simp [Memory.write, hv, Memory.read_erase_other h]
  · simp [Memory.write, hv, Memory.read_insert_other h]

theorem Memory.read_write : (m.write a v).read b = if b = a then v else m.read b := by
  by_cases h : b = a
  · simp [h]
  · simp [h, Memory.read_write_other]

/-- A cell of the memory after a write was there before, or is the one written. -/
theorem Memory.mem_write {c : Cell} (h : c ∈ m.write a v) : c ∈ m ∨ c = (a, v) := by
  by_cases hv : v = unwritten
  · simp only [Memory.write, hv, if_true, Memory.erase] at h
    exact .inl (List.mem_of_mem_filter h)
  · simp only [Memory.write, hv, if_false] at h
    clear hv
    induction m with
    | nil => exact .inr (by simpa [Memory.insert] using h)
    | cons d m ih =>
      obtain ⟨k, x⟩ := d
      by_cases h1 : a < k
      · simp only [Memory.insert, h1, if_true, List.mem_cons] at h ⊢
        tauto
      · by_cases h2 : a = k
        · simp only [Memory.insert, h2, lt_irrefl, if_true, if_false, List.mem_cons] at h ⊢
          tauto
        · simp only [Memory.insert, h1, h2, if_false, List.mem_cons] at h ⊢
          rcases h with h | h
          · exact .inl (.inl h)
          · rcases ih h with h | h <;> tauto

theorem Memory.wf_nil : Memory.wf [] := ⟨.nil, by simp⟩

theorem Memory.wf_erase (h : m.wf) : (m.erase a).wf :=
  ⟨h.1.sublist List.filter_sublist, fun c hc => h.2 c (List.mem_of_mem_filter hc)⟩

theorem Memory.key_of_mem_insert {c : Cell} (h : c ∈ m.insert a v) : c ∈ m ∨ c = (a, v) := by
  induction m with
  | nil => exact .inr (by simpa [Memory.insert] using h)
  | cons d m ih =>
    obtain ⟨k, x⟩ := d
    by_cases h1 : a < k
    · simp only [Memory.insert, h1, if_true, List.mem_cons] at h ⊢
      tauto
    · by_cases h2 : a = k
      · simp only [Memory.insert, h2, lt_irrefl, if_true, if_false, List.mem_cons] at h ⊢
        tauto
      · simp only [Memory.insert, h1, h2, if_false, List.mem_cons] at h ⊢
        rcases h with h | h
        · exact .inl (.inl h)
        · rcases ih h with h | h <;> tauto

theorem Memory.wf_insert (hm : m.wf) (hv : v ≠ 0) : (m.insert a v).wf := by
  refine ⟨?_, fun c hc => ?_⟩
  · have rising := hm.1
    clear hm
    induction m with
    | nil => simp [Memory.insert]
    | cons d m ih =>
      obtain ⟨k, x⟩ := d
      have htail := (List.pairwise_cons.mp rising)
      by_cases h1 : a < k
      · simp only [Memory.insert, h1, if_true]
        refine List.pairwise_cons.mpr ⟨fun c hc => ?_, rising⟩
        rcases List.mem_cons.mp hc with rfl | hc
        · exact h1
        · exact lt_trans h1 (htail.1 c hc)
      · by_cases h2 : a = k
        · subst h2
          simpa [Memory.insert] using rising
        · simp only [Memory.insert, h1, h2, if_false]
          refine List.pairwise_cons.mpr ⟨fun c hc => ?_, ih htail.2⟩
          rcases Memory.key_of_mem_insert hc with hc | rfl
          · exact htail.1 c hc
          · exact lt_of_le_of_ne (not_lt.mp h1) (Ne.symm h2)
  · rcases Memory.key_of_mem_insert hc with hc | rfl
    · exact hm.2 c hc
    · exact hv

/-- A write keeps the canonical form. -/
theorem Memory.wf_write (h : m.wf) : (m.write a v).wf := by
  by_cases hv : v = unwritten
  · simpa [Memory.write, hv] using Memory.wf_erase h
  · simpa [Memory.write, hv] using Memory.wf_insert h hv

theorem Memory.le_of_mem_image {vs : List Int} {c : Cell} : ∀ {a : Nat}, c ∈ Memory.image a vs → a ≤ c.1 := by
  induction vs with
  | nil => simp [Memory.image]
  | cons v vs ih =>
    intro a h
    by_cases hv : v = unwritten
    · simp only [Memory.image, hv, if_true] at h
      exact Nat.le_of_succ_le (ih h)
    · simp only [Memory.image, hv, if_false, List.mem_cons] at h
      rcases h with rfl | h
      · exact le_rfl
      · exact Nat.le_of_succ_le (ih h)

/-- A program image is in canonical form. -/
theorem Memory.wf_image {vs : List Int} : ∀ {a : Nat}, (Memory.image a vs).wf := by
  induction vs with
  | nil => exact Memory.wf_nil
  | cons v vs ih =>
    intro a
    by_cases hv : v = unwritten
    · simpa only [Memory.image, hv, if_true] using ih
    · have h := ih (a := a + 1)
      simp only [Memory.image, hv, if_false]
      exact ⟨List.pairwise_cons.mpr ⟨fun c hc => Memory.le_of_mem_image hc, h.1⟩,
        fun c hc => (List.mem_cons.mp hc).elim (fun e => e ▸ hv) (h.2 c)⟩

theorem Memory.value_of_mem_image {vs : List Int} {c : Cell} : ∀ {a : Nat}, c ∈ Memory.image a vs → c.2 ∈ vs := by
  induction vs with
  | nil => simp [Memory.image]
  | cons v vs ih =>
    intro a h
    by_cases hv : v = unwritten
    · simp only [Memory.image, hv, if_true] at h
      exact List.mem_cons_of_mem _ (ih h)
    · simp only [Memory.image, hv, if_false, List.mem_cons] at h
      rcases h with rfl | h
      · simp
      · exact List.mem_cons_of_mem _ (ih h)

theorem Memory.read_image_below {vs : List Int} : ∀ {a b : Nat}, b < a → (Memory.image a vs).read b = 0 := by
  induction vs with
  | nil => intros; rfl
  | cons v vs ih =>
    intro a b h
    have hb : (Memory.image (a + 1) vs).read b = 0 := ih (Nat.lt_succ_of_lt h)
    by_cases hv : v = unwritten
    · simpa [Memory.image, hv] using hb
    · simpa [Memory.image, hv, Memory.read_cons, Nat.ne_of_gt h] using hb

/-- What a program image reads as: the program's values at their places, and 0 beyond (R200). -/
theorem Memory.read_image {vs : List Int} : ∀ {a k : Nat}, (Memory.image a vs).read (a + k) = vs.getD k 0 := by
  induction vs with
  | nil => intros; rfl
  | cons v vs ih =>
    intro a k
    cases k with
    | zero =>
      by_cases hv : v = unwritten
      · simpa [Memory.image, hv, unwritten] using Memory.read_image_below (Nat.lt_succ_self a)
      · simp [Memory.image, hv, Memory.read_cons]
    | succ k =>
      have h := ih (a := a + 1) (k := k)
      rw [show a + 1 + k = a + (k + 1) by omega] at h
      by_cases hv : v = unwritten
      · simpa [Memory.image, hv] using h
      · simpa [Memory.image, hv, Memory.read_cons] using h

end Sys2Proof.Machine
end

