-- ==== Sys2Proof/Laws/PerInstr.lean ====
section
/-! SUPPORT. Facts about every instruction as syntax, one lemma per constructor. -/

namespace Sys2Proof.Laws.EncodedFields

/-- The instruction word of an instruction is legal in size, and its fields are the instruction's own (R51). -/
def Statement (i : Instr) : Prop :=
  0 ≤ i.word ∧ i.word < 100000 ∧ i.word % 100 = i.op.code ∧
  digit 2 i.word = i.mode1.digit ∧ digit 3 i.word = i.mode2.digit ∧ digit 4 i.word = i.mode3.digit

/-- The fields of a word put together from an opcode and three modes. -/
theorem fields (i : Instr) : Statement i := by
  have h1 := i.mode1.digit_range
  have h2 := i.mode2.digit_range
  have h3 := i.mode3.digit_range
  have hc := i.op.code_range
  simp only [Statement, Instr.word, digit]
  norm_num
  omega

theorem add (a b : Operand) (dest : Target) : Statement (.add a b dest) := fields _
theorem mul (a b : Operand) (dest : Target) : Statement (.mul a b dest) := fields _
theorem inp (dest : Target) (u2 u3 : Mode) : Statement (.inp dest u2 u3) := fields _
theorem out (a : Operand) (u2 u3 : Mode) : Statement (.out a u2 u3) := fields _
theorem jt (a target : Operand) (u3 : Mode) : Statement (.jt a target u3) := fields _
theorem jf (a target : Operand) (u3 : Mode) : Statement (.jf a target u3) := fields _
theorem lt (a b : Operand) (dest : Target) : Statement (.lt a b dest) := fields _
theorem eq (a b : Operand) (dest : Target) : Statement (.eq a b dest) := fields _
theorem arb (a : Operand) (u2 u3 : Mode) : Statement (.arb a u2 u3) := fields _
theorem hlt (u1 u2 u3 : Mode) : Statement (.hlt u1 u2 u3) := fields _

end Sys2Proof.Laws.EncodedFields
end

