-- ==== Sys2Proof/Laws/Step.lean ====
section
/-! SUPPORT. What a fetch and a step can answer, said once. -/

namespace Sys2Proof.Machine

variable {s t : State}

@[simp] theorem fetch_resume (s : State) : fetch s.resume = fetch s := rfl

theorem stopped_iff : s.stopped = true ↔ s.runState = .halted ∨ s.runState = .faulted := by
  unfold State.stopped
  cases s.runState <;> simp

theorem not_stopped_iff : s.stopped = false ↔ s.runState = .running ∨ s.runState = .paused := by
  unfold State.stopped
  cases s.runState <;> simp

/-- A fetch fails only on an illegal word, with that word as info. -/
theorem fetch_error {e : Trap} (h : fetch s = .error e) :
    e.info = s.mem.read s.pc ∧
    (e.cause = .invalidOpcode ∨ e.cause = .invalidMode ∨ e.cause = .immediateWriteTarget) := by
  unfold fetch at h
  split at h
  · cases h
  · rename_i d _
    cases h
    exact ⟨rfl, by cases d <;> simp [decodeCause]⟩

/-- Everything a step at a given width can do. -/
theorem stepAt_cases {width : Option Nat} (h : stepAt width s = .next t) :
    (s.stopped = true ∧ t = s) ∨
    (∃ i, s.stopped = false ∧ fetch s = .ok i ∧ execAt width i s.resume = .next t) ∨
    (∃ e, s.stopped = false ∧ fetch s = .error e ∧ t = s.resume.enterFault e) := by
  unfold stepAt stepWith at h
  cases hs : s.stopped with
  | true =>
    simp only [hs, if_true] at h
    cases h
    exact .inl ⟨rfl, rfl⟩
  | false =>
    rw [hs, if_neg Bool.false_ne_true, coreStepWith, fetch_resume] at h
    cases hf : fetch s with
    | ok i =>
      rw [hf] at h
      exact .inr (.inl ⟨i, rfl, rfl, h⟩)
    | error e =>
      rw [hf] at h
      cases h
      exact .inr (.inr ⟨e, rfl, rfl, rfl⟩)

theorem coreStepWith_congr {f g : Instr → State → Result} (h : ∀ i s, f i s = g i s) (s : State) :
    coreStepWith f s = coreStepWith g s := by
  unfold coreStepWith
  cases fetch s with
  | ok i => exact h i s
  | error e => rfl

/-- Everything a step can do. -/
theorem step_cases (h : step s = .next t) :
    (s.stopped = true ∧ t = s) ∨
    (∃ i, s.stopped = false ∧ fetch s = .ok i ∧ exec i s.resume = .next t) ∨
    (∃ e, s.stopped = false ∧ fetch s = .error e ∧ t = s.resume.enterFault e) := by
  have same : stepAt none s = step s := by
    unfold stepAt step stepWith
    rw [coreStepWith_congr execAt_none]
  rcases stepAt_cases (same.trans h) with h | ⟨i, hs, hf, he⟩ | h
  · exact .inl h
  · exact .inr (.inl ⟨i, hs, hf, (execAt_none i _).symm.trans he⟩)
  · exact .inr (.inr h)

theorem step_of_stopped (h : s.stopped = true) : step s = .next s := by
  simp [step, stepWith, h]

theorem step_of_fetch_ok {i : Instr} (hs : s.stopped = false) (hf : fetch s = .ok i) : step s = exec i s.resume := by
  simp [step, stepWith, coreStepWith, hs, hf]

theorem step_of_fetch_error {e : Trap} (hs : s.stopped = false) (hf : fetch s = .error e) :
    step s = .next (s.resume.enterFault e) := by
  simp [step, stepWith, coreStepWith, hs, hf]

/-- A step always answers a next state. -/
theorem step_answers_next (s : State) : ∃ t, step s = .next t := by
  cases hs : s.stopped with
  | true => exact ⟨s, step_of_stopped hs⟩
  | false =>
    cases hf : fetch s with
    | ok i => exact step_of_fetch_ok hs hf ▸ exec_answers_next i _
    | error e => exact ⟨_, step_of_fetch_error hs hf⟩

/-- A run of the host's machine is one step after another. -/
theorem core_run_succ {u : State} (h : step s = .next u) (k : Nat) : core.run (k + 1) s = core.run k u := by
  have hc : core.step s = .next u := h
  simp only [Host.Core.run, hc]

end Sys2Proof.Machine
end

