-- ==== Sys2Proof/Tests/Slice0.lean ====
section
/-! SUPPORT. Small tests on fixed values, and a witness for the hypotheses of every statement in Obligations.lean.
Expected results are those of 95_test_vectors.md (named by the row's id) or are worked out by hand from the encoding rules. -/

namespace Sys2Proof.Tests

open Machine

/-- A core with a program loaded, a relative base and queued inputs: the "start" column of 95_test_vectors.md. -/
def start (rb : Int) (inq cells : List Int) : State := { State.load cells with rb := rb, inq := inq }

/-- The smallest integer that does not fit 64 bits. -/
def tooBig : Int := 9223372036854775808

/-! ## Well-formedness: one ill-formed term per check -/

theorem test_wf_refuses_word_one : (Instr.add (.position tooBig) (.immediate 0) (.position 0)).wellFormedAt (some 64) = false := by decide

theorem test_wf_refuses_word_two : (Instr.jt (.immediate 0) (.immediate tooBig) .position).wellFormedAt (some 64) = false := by decide

theorem test_wf_refuses_word_three : (Instr.eq (.immediate 0) (.immediate 0) (.relative tooBig)).wellFormedAt (some 64) = false := by decide

theorem test_wf_refuses_in_dest : (Instr.inp (.position (-tooBig - 1)) .position .position).wellFormedAt (some 64) = false := by decide

theorem test_wf_takes_both_ends :
    (Instr.lt (.immediate (-tooBig)) (.immediate (tooBig - 1)) (.position 0)).wellFormedAt (some 64) = true := by decide

theorem test_wf_takes_all_at_inf : (Instr.out (.immediate tooBig) .position .position).wellFormed = true := by decide

/-! ## Decoding: every constructor from a word written out by R51 and R56 -/

theorem test_decode_add : decodeCells [20101, 7, 8, -9] = .ok (.add (.immediate 7) (.position 8) (.relative (-9))) := rfl

theorem test_decode_mul : decodeCells [1002, 4, 3, 4] = .ok (.mul (.position 4) (.immediate 3) (.position 4)) := rfl

theorem test_decode_in : decodeCells [12203, 5] = .ok (.inp (.relative 5) .relative .immediate) := rfl

theorem test_decode_out : decodeCells [21104, -6] = .ok (.out (.immediate (-6)) .immediate .relative) := rfl

theorem test_decode_jt : decodeCells [11205, 1, 2] = .ok (.jt (.relative 1) (.immediate 2) .immediate) := rfl

theorem test_decode_jf : decodeCells [22106, 1, 2] = .ok (.jf (.immediate 1) (.relative 2) .relative) := rfl

theorem test_decode_lt : decodeCells [2107, 1, 2, 3] = .ok (.lt (.immediate 1) (.relative 2) (.position 3)) := rfl

theorem test_decode_eq : decodeCells [21208, 1, 2, 3] = .ok (.eq (.relative 1) (.immediate 2) (.relative 3)) := rfl

theorem test_decode_arb : decodeCells [209, 4] = .ok (.arb (.relative 4) .position .position) := rfl

theorem test_decode_hlt : decodeCells [21099] = .ok (.hlt .position .immediate .relative) := rfl

theorem test_encode_lt : encode (.lt (.immediate 1) (.relative 2) (.position 3)) = [2107, 1, 2, 3] := by decide

/-- The table of "HLT and decode faults": the opcode check comes before the mode check, and that before the
destination check; digits 3 to 9 and excess digits are refused at unused positions too. -/
theorem test_decode_faults :
    [(-1 : Int), -99, 0, 10, 98, 100, 300, 304, 3004, 399, 100099, 100001, 10301, 10001, 103, 11107].map illegalClass =
      [some .invalidOpcode, some .invalidOpcode, some .invalidOpcode, some .invalidOpcode, some .invalidOpcode,
       some .invalidOpcode, some .invalidOpcode, some .invalidMode, some .invalidMode, some .invalidMode, some .invalidMode,
       some .invalidMode, some .invalidMode, some .immediateWriteTarget, some .immediateWriteTarget,
       some .immediateWriteTarget] := by decide

theorem test_decode_opcode_before_mode : decode 300 (fun _ => 0) = .error .invalidOpcode := rfl

theorem test_decode_mode_before_dest : decode 10301 (fun _ => 0) = .error .invalidMode := rfl

theorem test_decode_immediate_dest : decode 103 (fun _ => 0) = .error .immediateWriteTarget := rfl

theorem test_decode_excess_digits : decode 100099 (fun _ => 0) = .error .invalidMode := rfl

theorem test_table_word : decodeTableWord 8 4 = some (.out (.position 0) .position .position) := by decide

/-! ## One step per instruction -/

/-- A3: ADD overwrites its own word. -/
theorem test_add_over_itself :
    step (start 0 [] [1, 0, 0, 0, 99]) = .next { start 0 [] [2, 0, 0, 0, 99] with pc := 4 } := rfl

/-- A6: a source cell beyond the program reads 0, and the same cell is the destination. -/
theorem test_add_fresh_cell :
    step (start 0 [] [1001, 9, -5, 9, 99]) = .next { start 0 [] [1001, 9, -5, 9, 99, 0, 0, 0, 0, -5] with pc := 4 } := rfl

/-- M2. -/
theorem test_mul_negatives :
    step (start 0 [] [1102, -3, -4, 5, 99, 0]) = .next { start 0 [] [1102, -3, -4, 5, 99, 12] with pc := 4 } := rfl

/-- M7, with VALUE_BITS = 64. -/
theorem test_mul_overflows_at_64 :
    stepAt (some 64) (start 0 [] [1102, 4611686018427387904, 4, 5, 99, 0]) =
      .next { start 0 [] [1102, 4611686018427387904, 4, 5, 99, 0] with
        runState := .faulted, faultCause := .valueOverflow, faultInfo := 18446744073709551616 } := rfl

/-- I7: a Relative destination. -/
theorem test_in_relative :
    step (start 2 [-9] [203, 3, 99]) = .next { start 2 [] [203, 3, 99, 0, 0, -9] with pc := 2 } := rfl

/-- I2. -/
theorem test_in_starved :
    step (start 0 [] [3, 5, 4, 5, 99, 0]) = .next { start 0 [] [3, 5, 4, 5, 99, 0] with runState := .paused } := rfl

/-- O3: a Relative source. -/
theorem test_out_relative :
    step (start 4 [] [204, -1, 99, 8]) = .next { start 4 [] [204, -1, 99, 8] with outq := [8], pc := 2 } := rfl

/-- O4, its second step: the value goes to the back. -/
theorem test_out_goes_last :
    step { start 0 [] [104, 1, 104, 2] with outq := [1], pc := 2 } =
      .next { start 0 [] [104, 1, 104, 2] with outq := [1, 2], pc := 4 } := rfl

/-- J1 and J2. -/
theorem test_jt_taken_or_not :
    step (start 0 [] [1105, 1, 4, 99]) = .next { start 0 [] [1105, 1, 4, 99] with pc := 4 } ∧
    step (start 0 [] [1105, 0, 4, 99]) = .next { start 0 [] [1105, 0, 4, 99] with pc := 3 } := ⟨rfl, rfl⟩

/-- J8: an address fault of the target parameter of a jump that is not taken. -/
theorem test_jt_resolves_eagerly :
    step (start 0 [] [105, 0, -6, 99]) = .next { start 0 [] [105, 0, -6, 99] with
      runState := .faulted, faultCause := .negativeAddress, faultInfo := -6 } := rfl

/-- J3 and J4. -/
theorem test_jf_taken_or_not :
    step (start 0 [] [1106, 0, 4, 99]) = .next { start 0 [] [1106, 0, 4, 99] with pc := 4 } ∧
    step (start 0 [] [1106, 3, 4, 99]) = .next { start 0 [] [1106, 3, 4, 99] with pc := 3 } := ⟨rfl, rfl⟩

/-- Table LT and EQ, row (-1, 0). -/
theorem test_lt_signed :
    step (start 0 [] [1107, -1, 0, 5, 99, 7]) = .next { start 0 [] [1107, -1, 0, 5, 99, 1] with pc := 4 } := rfl

/-- C2: the destination is a source cell. -/
theorem test_eq_over_source :
    step (start 0 [] [8, 5, 6, 5, 99, 8, 8]) = .next { start 0 [] [8, 5, 6, 5, 99, 1, 8] with pc := 4 } := rfl

/-- R5: a Relative operand is read with the old base. -/
theorem test_arb_old_base :
    step (start 4 [] [209, 2, 99, 0, 0, 0, 30]) = .next { start 34 [] [209, 2, 99, 0, 0, 0, 30] with pc := 2 } := rfl

/-- Row 22299: unused mode digits are ignored. -/
theorem test_hlt_unused_digits :
    step (start 0 [] [22299]) = .next { start 0 [] [22299] with pc := 1, runState := .halted } := rfl

theorem test_table_word_runs :
    step (State.reset.withFetchWord 8 4) = .next { start 0 [] [4] with outq := [4], pc := 2 } := rfl

/-! ## The host's transactions -/

/-- H4 and H5: an input does not end the pause, the next STEP does. -/
theorem test_pause_then_resume :
    request (.addInput 5) { start 0 [] [3, 10, 99] with runState := .paused } =
      .next ({ start 0 [5] [3, 10, 99] with runState := .paused }, .none) ∧
    step { start 0 [5] [3, 10, 99] with runState := .paused } =
      .next { start 0 [] [3, 10, 99, 0, 0, 0, 0, 0, 0, 0, 5] with pc := 2 } := ⟨rfl, rfl⟩

/-- O4, its pops. -/
theorem test_pop_both_ends :
    request .popOutputFront { State.reset with outq := [1, 2, 3] } =
      .next ({ State.reset with outq := [2, 3] }, .popped (some 1)) ∧
    request .popOutputBack { State.reset with outq := [2, 3] } =
      .next ({ State.reset with outq := [2] }, .popped (some 3)) := ⟨rfl, rfl⟩

/-- S5. -/
theorem test_read_mem_fresh :
    request (.readMem 4) (State.load [1002, 4, 3, 4, 33]) = .next (State.load [1002, 4, 3, 4, 33], .value 33) ∧
    request (.readMem 5) (State.load [1002, 4, 3, 4, 33]) = .next (State.load [1002, 4, 3, 4, 33], .value 0) := ⟨rfl, rfl⟩

/-- H7: the patched word is decoded afresh. -/
theorem test_patched_word_runs :
    request (.writeMem 0 104) { start 0 [] [3, 10, 99] with runState := .paused } =
      .next ({ start 0 [] [104, 10, 99] with runState := .paused }, .none) ∧
    step { start 0 [] [104, 10, 99] with runState := .paused } =
      .next { start 0 [] [104, 10, 99] with outq := [10], pc := 2 } := ⟨rfl, rfl⟩

/-- S2, as one RUN. -/
theorem test_run_self_modifying :
    runWithin 2 (start 0 [] [1002, 4, 3, 4, 33]) =
      some { start 0 [] [1002, 4, 3, 4, 99] with pc := 5, runState := .halted } := rfl

/-! ## Witnesses: a case that meets the hypotheses of each clause of each statement, at a boundary where there is one -/

/-- A loaded core at the start of a one-instruction program. -/
def at0 (cells : List Int) : State := start 0 [] cells

/-- The state a fault leaves. -/
def faultedWith (s : State) (c : FaultCause) (v : Int) : State :=
  { s with runState := .faulted, faultCause := c, faultInfo := v }

/-- The smallest and the largest legal word. -/
theorem witness_EncodeOfDecodeIsTheCells :
    decode 1 (fun _ => 0) = .ok (.add (.position 0) (.position 0) (.position 0)) ∧
    decode 22299 (fun _ => 0) = .ok (.hlt .relative .relative .relative) := ⟨rfl, rfl⟩

/-- One word per class, at the class's edge, and the largest legal word. -/
theorem witness_IllegalWordsFaultByTheirFirstClass :
    (at0 [-1]).stopped = false ∧ illegalClass ((at0 [-1]).mem.read 0) = some .invalidOpcode ∧
    (at0 []).stopped = false ∧ illegalClass ((at0 []).mem.read 0) = some .invalidOpcode ∧
    (at0 [301]).stopped = false ∧ illegalClass ((at0 [301]).mem.read 0) = some .invalidMode ∧
    (at0 [100099]).stopped = false ∧ illegalClass ((at0 [100099]).mem.read 0) = some .invalidMode ∧
    (at0 [12201]).stopped = false ∧ illegalClass ((at0 [12201]).mem.read 0) = some .immediateWriteTarget ∧
    (at0 [22299]).stopped = false ∧ illegalClass ((at0 [22299]).mem.read 0) = none := by decide

theorem witness_UnusedModeDigitsHaveNoEffect :
    decode 4 (fun _ => 0) = .ok (.out (.position 0) .position .position) ∧
    decode 22004 (fun _ => 0) = .ok (.out (.position 0) .relative .relative) ∧
    (Instr.out (.position 0) .position .position).canonical = (Instr.out (.position 0) .relative .relative).canonical :=
  ⟨rfl, rfl, rfl⟩

/-- Each clause on either side of address 0; also the last clauses of OnlyArbChangesTheRelativeBase. -/
theorem witness_OperandFormsResolveByTheRule :
    (0 : Int) ≤ 0 ∧ (-1 : Int) < 0 ∧ 0 ≤ (start 5 [] []).rb + -5 ∧ (start 5 [] []).rb + -6 < 0 := by decide

/-- No Relative parameter, not ARB, and a next state. -/
theorem witness_RelativeModeIsPositionModeByHand :
    (∀ k, (Instr.out (.position 0) .relative .position).byHand k = .out (.position 0) .relative .position) ∧
    (Instr.out (.position 0) .relative .position).op ≠ .arb ∧
    exec (.out (.position 0) .relative .position) (start 5 [] [7]) =
      .next { start 5 [] [7] with outq := [7], pc := 2 } := ⟨fun _ => rfl, by decide, rfl⟩

theorem witness_StepRunsTheInstructionAtThePc :
    (at0 [1002, 4, 3, 4, 33]).runState = .running ∧
    HoldsAtPc (at0 [1002, 4, 3, 4, 33]) (.mul (.position 4) (.immediate 3) (.position 4)) ∧
    ({ at0 [99] with runState := .paused } : State).runState = .paused ∧
    HoldsAtPc { at0 [99] with runState := .paused } (.hlt .position .position .position) :=
  ⟨rfl, by unfold HoldsAtPc; decide, rfl, by unfold HoldsAtPc; decide⟩

/-- A state with a cell, an input, an output and `rb` at the ends of the 64-bit range. -/
def edge : State := { start (-tooBig) [tooBig - 1] [104, tooBig - 1] with outq := [-tooBig] }

theorem edge_inv : edge.InvAt (some 64) where
  canonical := by decide
  cellsFit := by decide
  rbFits := by decide
  inqFits := by decide
  outqFits := by decide
  causeSet := by decide
  infoClear := by decide

theorem witness_FetchedInstructionsAreWellFormed :
    Config.legalWidth (some 64) = true ∧ edge.InvAt (some 64) ∧
    fetch edge = .ok (.out (.immediate (tooBig - 1)) .position .position) := ⟨rfl, edge_inv, rfl⟩

/-- For each of ADD, MUL, LT, EQ: words of the three decode clauses at their edges. -/
theorem witness_DecodesWithDest : ∀ c ∈ [(1 : Int), 2, 7, 8],
    (0 ≤ 300 + c ∧ (300 + c) % 100 = c ∧ BadDigits (300 + c)) ∧
    (0 ≤ 100000 + c ∧ (100000 + c) % 100 = c ∧ BadDigits (100000 + c)) ∧
    (0 ≤ 12200 + c ∧ (12200 + c) % 100 = c ∧ ¬ BadDigits (12200 + c) ∧ digit 4 (12200 + c) = 1) ∧
    (0 ≤ 22200 + c ∧ (22200 + c) % 100 = c ∧ ¬ BadDigits (22200 + c) ∧ digit 4 (22200 + c) ≠ 1) := by decide

/-- For each of OUT, JT, JF, ARB, HLT: words of the two decode clauses. -/
theorem witness_DecodesWithoutDest : ∀ c ∈ [(4 : Int), 5, 6, 9, 99],
    (0 ≤ 30000 + c ∧ (30000 + c) % 100 = c ∧ BadDigits (30000 + c)) ∧
    (0 ≤ 100000 + c ∧ (100000 + c) % 100 = c ∧ BadDigits (100000 + c)) ∧
    (0 ≤ 22200 + c ∧ (22200 + c) % 100 = c ∧ ¬ BadDigits (22200 + c)) := by decide

/-- Both sources and the destination resolve (the last address a negative one would follow is 0). -/
theorem witness_WritesResult :
    rdVal (start 5 [] [7]) (.position 0) = .ok 7 ∧ rdVal (start 5 [] [7]) (.relative (-5)) = .ok 7 ∧
    wrAddr (start 5 [] [7]) (.relative (-5)) = .ok 0 ∧ wrAddr (start 5 [] [7]) (.position 0) = .ok 0 := ⟨rfl, rfl, rfl, rfl⟩

/-- A sum and a product on either side of the 64-bit range, with sources and a destination that resolve. -/
theorem witness_WritesResultAtEveryWidth :
    rdVal State.reset (.immediate (tooBig - 1)) = .ok (tooBig - 1) ∧ rdVal State.reset (.immediate 1) = .ok 1 ∧
    rdVal State.reset (.immediate 0) = .ok 0 ∧ wrAddr State.reset (.position 0) = .ok 0 ∧
    rdVal State.reset (.immediate (-2)) = .ok (-2) ∧
    fits (some 64) (tooBig - 1 + 0) = true ∧ fits (some 64) (tooBig - 1 + 1) = false ∧
    fits (some 64) ((tooBig - 1) * 1) = true ∧ fits (some 64) ((tooBig - 1) * (-2)) = false :=
  ⟨rfl, rfl, rfl, rfl, rfl, rfl, rfl, rfl, rfl⟩

/-- Parameter 1, 2 or 3 the first that does not resolve, each by one below 0. -/
theorem witness_FaultsOnAddresses :
    rdVal State.reset (.position (-1)) = .error ⟨.negativeAddress, -1⟩ ∧
    rdVal State.reset (.immediate 3) = .ok 3 ∧ rdVal State.reset (.relative (-1)) = .error ⟨.negativeAddress, -1⟩ ∧
    wrAddr State.reset (.position (-1)) = .error ⟨.negativeAddress, -1⟩ := ⟨rfl, rfl, rfl, rfl⟩

/-- The five rows at n = 0, delivered by Immediate mode. -/
theorem witness_ComparisonBoundaryTable : ∀ row ∈ [((0 : Int), (0 : Int)), (-1, 0), (1, 0), (0, -1), (0, 1)],
    (rdVal State.reset (.immediate row.1)).toOption = some row.1 ∧
    (rdVal State.reset (.immediate row.2)).toOption = some row.2 ∧
    (wrAddr State.reset (.position 0)).toOption = some 0 := by decide

theorem witness_InputStoresTheOldestOrPauses :
    ((0 : Int) ≤ 303 ∧ (303 : Int) % 100 = 3 ∧ BadDigits 303) ∧
    ((0 : Int) ≤ 22103 ∧ (22103 : Int) % 100 = 3 ∧ ¬ BadDigits 22103 ∧ digit 2 22103 = 1) ∧
    ((0 : Int) ≤ 22203 ∧ (22203 : Int) % 100 = 3 ∧ ¬ BadDigits 22203 ∧ digit 2 22203 ≠ 1) ∧
    ((wrAddr (start 5 [1, 2] []) (.relative (-5))).toOption = some 0 ∧ (start 5 [1, 2] []).inq = 1 :: [2]) ∧
    ((wrAddr (start 5 [] []) (.relative (-5))).toOption = some 0 ∧ (start 5 [] []).inq = []) := by decide

/-- IN starved at the pc of a core that is not stopped. -/
theorem witness_InputStoresTheOldestOrPauses_run :
    wrAddr (start 0 [] [3, 0]) (.position 0) = .ok 0 ∧ (start 0 [] [3, 0]).inq = [] ∧
    (start 0 [] [3, 0]).stopped = false ∧
    fetch (start 0 [] [3, 0]) = .ok (.inp (.position 0) .position .position) := ⟨rfl, rfl, rfl, rfl⟩

/-- IN's bad destination, with an empty queue and with an input. -/
theorem witness_InputStoresTheOldestOrPauses_fault :
    wrAddr (start 5 [] []) (.relative (-6)) = .error ⟨.negativeAddress, -1⟩ ∧
    wrAddr (start 5 [1] []) (.position (-1)) = .error ⟨.negativeAddress, -1⟩ := ⟨rfl, rfl⟩

/-- OUT and ARB: an operand that resolves at address 0 and one that misses it. -/
theorem witness_OutputAppends_and_ArbAdds :
    rdVal (start 5 [] [7]) (.relative (-5)) = .ok 7 ∧
    rdVal (start 5 [] [7]) (.relative (-6)) = .error ⟨.negativeAddress, -1⟩ ∧
    rdVal (start 1 [] []) (.immediate (tooBig - 2)) = .ok (tooBig - 2) ∧
    fits (some 64) ((start 1 [] []).rb + (tooBig - 2)) = true ∧
    rdVal (start 1 [] []) (.immediate (tooBig - 1)) = .ok (tooBig - 1) ∧
    fits (some 64) ((start 1 [] []).rb + (tooBig - 1)) = false := ⟨rfl, rfl, rfl, rfl, rfl, rfl⟩

/-- JT and JF: conditions -1, 0 and 1, targets 0 and -1, and each parameter failing. -/
theorem witness_JumpsFollowTheirCondition :
    rdVal State.reset (.immediate (-1)) = .ok (-1) ∧ rdVal State.reset (.immediate 0) = .ok 0 ∧
    rdVal State.reset (.immediate 1) = .ok 1 ∧
    rdVal State.reset (.position (-1)) = .error ⟨.negativeAddress, -1⟩ ∧
    rdVal State.reset (.relative (-1)) = .error ⟨.negativeAddress, -1⟩ := ⟨rfl, rfl, rfl, rfl, rfl⟩

/-- A destination that resolves and one that does not, each with the next state; IN with and without an input. -/
theorem witness_FrameOfStoringInstructions :
    (Instr.dest (.add (.immediate 1) (.immediate 2) (.position 0)) = some (.position 0) ∧
      exec (.add (.immediate 1) (.immediate 2) (.position 0)) (at0 []) = .next { at0 [3] with pc := 4 } ∧
      wrAddr (at0 []) (.position 0) = .ok 0) ∧
    (Instr.dest (.eq (.immediate 1) (.immediate 2) (.position (-1))) = some (.position (-1)) ∧
      exec (.eq (.immediate 1) (.immediate 2) (.position (-1))) (at0 []) = .next (faultedWith (at0 []) .negativeAddress (-1)) ∧
      wrAddr (at0 []) (.position (-1)) = .error ⟨.negativeAddress, -1⟩) ∧
    (exec (.inp (.position 0) .position .position) (start 0 [4] []) = .next { at0 [4] with pc := 2 }) ∧
    (exec (.inp (.position 0) .position .position) (at0 []) = .next { at0 [] with runState := .paused }) :=
  ⟨⟨rfl, rfl, rfl⟩, ⟨rfl, rfl, rfl⟩, rfl, rfl⟩

theorem witness_FrameOfNonStoringInstructions :
    (Instr.dest (.out (.immediate 1) .position .position) = none ∧
      exec (.out (.immediate 1) .position .position) (at0 []) = .next { at0 [] with outq := [1], pc := 2 }) ∧
    (Instr.dest (.hlt .position .position .position) = none ∧
      exec (.hlt .position .position .position) (at0 []) = .next { at0 [] with runState := .halted, pc := 1 }) ∧
    (Instr.dest (.arb (.position (-1)) .position .position) = none ∧
      exec (.arb (.position (-1)) .position .position) (at0 []) = .next (faultedWith (at0 []) .negativeAddress (-1))) :=
  ⟨⟨rfl, rfl⟩, ⟨rfl, rfl⟩, rfl, rfl⟩

/-- A step into each of the four run states, from a core that is not stopped: for StepHasOneOfFourOutcomes,
FaultsArePrecise, OnlyAStarvedInPauses, ProgramCounterFollowsTheRule and RunStateMachineIsTheTable. -/
theorem witness_steps_into_every_run_state :
    ((at0 [109, 1]).stopped = false ∧ step (at0 [109, 1]) = .next { start 1 [] [109, 1] with pc := 2 }) ∧
    ((at0 [99]).stopped = false ∧ step (at0 [99]) = .next { at0 [99] with pc := 1, runState := .halted }) ∧
    ((at0 [3, 0]).stopped = false ∧ step (at0 [3, 0]) = .next { at0 [3, 0] with runState := .paused }) ∧
    ((at0 [0]).stopped = false ∧ step (at0 [0]) = .next (faultedWith (at0 [0]) .invalidOpcode 0)) ∧
    ((at0 [301]).stopped = false ∧ step (at0 [301]) = .next (faultedWith (at0 [301]) .invalidMode 301)) ∧
    ((at0 [103]).stopped = false ∧ step (at0 [103]) = .next (faultedWith (at0 [103]) .immediateWriteTarget 103)) ∧
    ((at0 [4, -1]).stopped = false ∧ step (at0 [4, -1]) = .next (faultedWith (at0 [4, -1]) .negativeAddress (-1))) :=
  ⟨⟨rfl, rfl⟩, ⟨rfl, rfl⟩, ⟨rfl, rfl⟩, ⟨rfl, rfl⟩, ⟨rfl, rfl⟩, ⟨rfl, rfl⟩, ⟨rfl, rfl⟩⟩

/-- The fetches behind those steps: a plain instruction, HLT, IN, a taken jump, and words that do not decode. -/
theorem witness_ProgramCounterFollowsTheRule :
    fetch (at0 [109, 1]) = .ok (.arb (.immediate 1) .position .position) ∧
    fetch (at0 [99]) = .ok (.hlt .position .position .position) ∧
    fetch (at0 [3, 0]) = .ok (.inp (.position 0) .position .position) ∧
    (fetch (at0 [1105, 1, 0]) = .ok (.jt (.immediate 1) (.immediate 0) .position) ∧ step (at0 [1105, 1, 0]) = .next (at0 [1105, 1, 0])) ∧
    fetch (at0 [4, -1]) = .ok (.out (.position (-1)) .position .position) ∧
    fetch (at0 [0]) = .error ⟨.invalidOpcode, 0⟩ := ⟨rfl, rfl, rfl, ⟨rfl, rfl⟩, rfl, rfl⟩

theorem witness_StarvedAtPc : StarvedAtPc (at0 [3, 0]) := ⟨.position 0, .position, .position, 0, rfl, rfl, rfl⟩

/-- Clauses 1 and 2: the paused IN, and an HLT the host wrote over it; clause 3: a port answers; clause 4 is the third
line of `witness_steps_into_every_run_state`. -/
theorem witness_PausedCoreResumesAtTheSameInstruction :
    HoldsAtPc { at0 [3, 0] with runState := .paused } (.inp (.position 0) .position .position) ∧
    HoldsAtPc { at0 [99] with runState := .paused } (.hlt .position .position .position) ∧
    request (.writeMem 0 99) { at0 [3] with runState := .paused } = .next ({ at0 [99] with runState := .paused }, .none) ∧
    RunReturns { at0 [3, 0] with runState := .paused } { at0 [3, 0] with runState := .paused } :=
  ⟨by unfold HoldsAtPc; decide, by unfold HoldsAtPc; decide, rfl, 1, rfl⟩

theorem witness_StoppedCoreStaysStopped :
    (faultedWith (at0 [0]) .invalidOpcode 0).runState = .faulted ∧
    ({ at0 [99] with pc := 1, runState := .halted } : State).runState = .halted ∧
    request (.writeMem 0 0) { at0 [99] with pc := 1, runState := .halted } =
      .next ({ at0 [] with pc := 1, runState := .halted }, .none) ∧
    (Request.readMem 0).inDomain Config.valueBits = true := ⟨rfl, rfl, rfl, rfl⟩

/-- Clause 2: an ARB with a nonzero operand; clause 3: a port that is not STEP or RESET. -/
theorem witness_OnlyArbChangesTheRelativeBase :
    (step (at0 [109, -1]) = .next { start (-1) [] [109, -1] with pc := 2 } ∧ (start (-1) [] [109, -1]).rb ≠ (at0 [109, -1]).rb) ∧
    request (.addInput 3) (at0 []) = .next (start 0 [3] [], .none) := ⟨⟨rfl, by decide⟩, rfl⟩

/-- A session with an input added, a STEP that consumes it, and a RUN that halts. -/
theorem witness_Session :
    NoReset [(.ask (.addInput 7), .none), (.ask .step, .none), (.run, .none)] ∧
    NoPop [(.ask (.addInput 7), .none), (.ask .step, .none), (.run, .none)] ∧
    Session (at0 [3, 4, 99]) [(.ask (.addInput 7), .none), (.ask .step, .none), (.run, .none)]
      { at0 [3, 4, 99, 0, 7] with pc := 3, runState := .halted } :=
  ⟨by simp [NoReset], by simp [NoPop],
    start 0 [7] [3, 4, 99], rfl, { at0 [3, 4, 99, 0, 7] with pc := 2 }, rfl, _, ⟨⟨1, rfl⟩, rfl⟩, rfl⟩

theorem witness_ResetMeetsTheInvariant :
    Config.legalWidth (some 64) = true ∧ [tooBig - 1, -tooBig].all (fits (some 64)) = true := by decide

theorem reset_inv : State.reset.Inv where
  canonical := by decide
  cellsFit := by decide
  rbFits := by decide
  inqFits := by decide
  outqFits := by decide
  causeSet := by decide
  infoClear := by decide

/-- StepKeepsTheInvariant and SessionKeepsTheInvariant. -/
theorem witness_StepKeepsTheInvariant :
    State.reset.Inv ∧ step State.reset = .next (faultedWith State.reset .invalidOpcode 0) ∧
    Session State.reset [(.ask .step, .none)] (faultedWith State.reset .invalidOpcode 0) := ⟨reset_inv, rfl, _, rfl, rfl⟩

theorem witness_StepAtEveryWidthKeepsTheInvariant :
    Config.legalWidth (some 64) = true ∧ edge.InvAt (some 64) ∧
    stepAt (some 64) edge = .next { edge with outq := [-tooBig, tooBig - 1], pc := 2 } := ⟨rfl, edge_inv, rfl⟩

theorem witness_CanonicalMemoriesThatReadAlikeAreEqual :
    Memory.wf [(0, 1), (2, -1)] ∧ Memory.wf (Memory.image 0 [1, 0, -1]) ∧
    ∀ a, Memory.read [(0, 1), (2, -1)] a = (Memory.image 0 [1, 0, -1]).read a := ⟨by decide, by decide, fun _ => rfl⟩

/-- An empty queue, and a queue of one, which is both its front and its back. -/
theorem witness_OutputPortsTakeFromEitherEnd :
    State.reset.outq = [] ∧ ({ State.reset with outq := [4] } : State).outq = 4 :: [] ∧
    ({ State.reset with outq := [4] } : State).outq = [] ++ [4] := ⟨rfl, rfl, rfl⟩

/-- A paused IN whose word (made illegal, and made OUT), operand cell, and a cell beyond it are patched: what the next
fetch reads; and a halted core. -/
theorem witness_MemoryPortsReadAndPatchOneCell :
    ({ at0 [3, 7] with runState := .paused } : State).stopped = false ∧
    fetch { at0 [-1, 7] with runState := .paused } = .error ⟨.invalidOpcode, -1⟩ ∧
    fetch { at0 [104, 7] with runState := .paused } = .ok (.out (.immediate 7) .position .position) ∧
    fetch { at0 [3, 9] with runState := .paused } = .ok (.inp (.position 9) .position .position) ∧
    (patched (at0 [3, 7]).mem 0 104 0 = 104 ∧ patched (at0 [3, 7]).mem 1 9 1 = 9 ∧ patched (at0 [3, 7]).mem 2 5 1 = 7) ∧
    ({ at0 [99] with runState := .halted } : State).stopped = true := ⟨rfl, rfl, rfl, rfl, ⟨rfl, rfl, rfl⟩, rfl⟩

theorem witness_OutOfDomainArgumentsAreRefused :
    (Request.addInput tooBig).inDomain (some 64) = false ∧ (Request.addInput (tooBig - 1)).inDomain (some 64) = true ∧
    (Request.readMem (-1)).inDomain none = false ∧ (Request.writeMem 0 tooBig).inDomain none = true ∧
    request (.readMem (-1)) State.reset = .refused .hostArgument := ⟨rfl, rfl, rfl, rfl, rfl⟩

/-- A stopped core, one that is not, a RUN that returns, and a starved paused core. -/
theorem witness_RunIsStepUntilNotRunning :
    ({ at0 [99] with runState := .halted } : State).stopped = true ∧ (at0 [99]).stopped = false ∧
    RunReturns (at0 [99]) { at0 [99] with pc := 1, runState := .halted } ∧
    (({ at0 [3, 0] with runState := .paused } : State).runState = .paused ∧
      StarvedAtPc { at0 [3, 0] with runState := .paused }) :=
  ⟨rfl, rfl, ⟨1, rfl⟩, rfl, .position 0, .position, .position, 0, rfl, rfl, rfl⟩

/-- H9, and the same loop with JF. -/
theorem witness_RunOfASelfJumpNeverReturns :
    ((at0 [1105, 1, 0]).stopped = false ∧ fetch (at0 [1105, 1, 0]) = .ok (.jt (.immediate 1) (.immediate 0) .position) ∧
      rdVal (at0 [1105, 1, 0]) (.immediate 1) = .ok 1 ∧ (1 : Int) ≠ 0 ∧
      rdVal (at0 [1105, 1, 0]) (.immediate 0) = .ok (((at0 [1105, 1, 0]).pc : Nat) : Int)) ∧
    (fetch (at0 [1106, 0, 0]) = .ok (.jf (.immediate 0) (.immediate 0) .position) ∧
      rdVal (at0 [1106, 0, 0]) (.immediate 0) = .ok 0 ∧
      rdVal (at0 [1106, 0, 0]) (.immediate 0) = .ok (((at0 [1106, 0, 0]).pc : Nat) : Int)) :=
  ⟨⟨rfl, rfl, rfl, by decide, rfl⟩, rfl, rfl, rfl⟩

theorem witness_HaltedProgramCounterIsUnobservable :
    SameButPc { at0 [99] with pc := 1, runState := .halted } { at0 [99] with pc := 0, runState := .halted } ∧
    Session { at0 [99] with pc := 1, runState := .halted } [(.ask (.readMem 0), .value 99), (.ask .step, .none)]
      { at0 [99] with pc := 1, runState := .halted } := ⟨rfl, _, rfl, _, rfl, rfl⟩

/-- A narrow machine that runs without overflow, and M7, where it overflows. -/
theorem witness_NarrowMachineAgreesUntilItOverflows :
    ((coreAt (some 64)).run 1 (at0 [99]) = .next { at0 [99] with pc := 1, runState := .halted } ∧
      ({ at0 [99] with pc := 1, runState := .halted } : State).faultCause ≠ .valueOverflow) ∧
    ((at0 [1102, 4611686018427387904, 4, 5]).stopped = false ∧
      stepAt (some 64) (at0 [1102, 4611686018427387904, 4, 5]) =
        .next (faultedWith (at0 [1102, 4611686018427387904, 4, 5]) .valueOverflow 18446744073709551616) ∧
      (at0 [1102, 4611686018427387904, 4, 5]).faultCause ≠ .valueOverflow) :=
  ⟨⟨rfl, by decide⟩, rfl, rfl, by decide⟩

/-- Each side of clause 1: a completing instruction, an illegal word, a parameter that misses address 0, a taken jump to
-1; HLT and the starved IN are `witness_ProgramCounterFollowsTheRule` and `witness_StarvedAtPc`. -/
theorem witness_RunStateMachineIsTheTable_steps :
    CompletesAtPc (at0 [1105, 1, 0]) ∧ FaultsAtPc (at0 []) ∧ FaultsAtPc (at0 [4, -1]) ∧ FaultsAtPc (at0 [1105, 1, -1]) := by
  refine ⟨⟨_, rfl, by decide, ⟨?_, by simp [Instr.dest]⟩, by simp [Instr.op], ?_⟩, .inl ⟨_, rfl⟩, .inr ⟨_, rfl, .inl ?_⟩,
    .inr ⟨_, rfl, .inr ⟨-1, rfl, by decide⟩⟩⟩
  · intro a ha
    simp [Instr.reads, Operand.ofMode] at ha
    rcases ha with rfl | rfl <;> exact ⟨_, rfl⟩
  · intro y h
    cases h
    decide
  · intro h
    obtain ⟨x, hx⟩ := h.1 _ (.head _)
    cases hx

/-- The other clauses: a paused core, a RUN that returns from a core that is not stopped, a stopped core, a port that is
not STEP, and RESET. -/
theorem witness_RunStateMachineIsTheTable :
    ({ at0 [3, 0] with runState := .paused } : State).runState = .paused ∧
    ((at0 [109, 1, 99]).stopped = false ∧
      RunReturns (at0 [109, 1, 99]) { start 1 [] [109, 1, 99] with pc := 3, runState := .halted }) ∧
    ({ at0 [99] with runState := .halted } : State).stopped = true ∧
    request (.addInput 1) (at0 []) = .next (start 0 [1] [], .none) ∧
    request (.reset [99]) { at0 [] with runState := .faulted, faultCause := .invalidOpcode } = .next (at0 [99], .none) :=
  ⟨rfl, ⟨rfl, 2, rfl⟩, rfl, rfl, rfl⟩

end Sys2Proof.Tests
end

section
/-! PROOFS. Which operations can change `rb` (10_state.md R13), and the settlement of O28. -/

namespace Sys2Proof.Machine

variable {s t : State}

theorem effAddr_of_nonneg {a : Int} (h : 0 ≤ a) : effAddr a = .ok a.toNat :=
  effAddr_ok_iff.mpr (Int.toNat_of_nonneg h)

theorem effAddr_of_neg {a : Int} (h : a < 0) : effAddr a = .error ⟨.negativeAddress, a⟩ :=
  effAddr_error_iff.mpr ⟨h, rfl⟩

@[simp] theorem rdVal_resume (s : State) (a : Operand) : rdVal s.resume a = rdVal s a := by
  cases a <;> rfl

theorem rdVal_relative_of_nonneg {n : Int} (h : 0 ≤ s.rb + n) :
    rdVal s (.relative n) = .ok (s.mem.read (s.rb + n).toNat) := by
  rw [rdVal, effAddr_of_nonneg h]; rfl

theorem rdVal_relative_of_neg {n : Int} (h : s.rb + n < 0) :
    rdVal s (.relative n) = .error ⟨.negativeAddress, s.rb + n⟩ := by
  rw [rdVal, effAddr_of_neg h]; rfl

theorem storeBinary_keeps_rb {compute : Int → Int → Except Trap Int} {a b : Operand} {dest : Target}
    (h : storeBinary compute a b dest s = .next t) : t.rb = s.rb := by
  obtain ⟨_, _, _, _, _, _, _, _, rfl⟩ | ⟨_, rfl, _⟩ := storeBinary_cases h
  · simp
  · simp

theorem execIn_keeps_rb {dest : Target} (u2 u3 : Mode) (h : execIn dest u2 u3 s = .next t) : t.rb = s.rb := by
  obtain ⟨_, _, _, _, _, rfl⟩ | ⟨_, _, _, rfl⟩ | ⟨_, _, rfl⟩ := execIn_cases u2 u3 h
  · simp
  · simp
  · simp

theorem execOut_keeps_rb {a : Operand} (u2 u3 : Mode) (h : execOut a u2 u3 s = .next t) : t.rb = s.rb := by
  obtain ⟨_, _, rfl⟩ | ⟨_, _, rfl⟩ := execOut_cases u2 u3 h
  · simp
  · simp

theorem jumpWhen_keeps_rb {condition : Int → Bool} {a target : Operand}
    (h : jumpWhen condition a target s = .next t) : t.rb = s.rb := by
  obtain ⟨_, _, _, _, _, _, rfl⟩ | ⟨_, _, _, _, _, rfl⟩ | ⟨_, _, _, rfl⟩ := jumpWhen_cases h
  · simp
  · simp
  · simp

/-- ARB moves `rb` by its operand's value, or faults and leaves it (R130). -/
theorem execArbAt_rb {width : Option Nat} {a : Operand} (h : execArbAt width a s = .next t) :
    t.rb = s.rb ∨ ∃ x, rdVal s a = .ok x ∧ t.rb = s.rb + x := by
  obtain ⟨x, hx, _, rfl⟩ | ⟨_, _, _, rfl⟩ | ⟨_, _, rfl⟩ := execArbAt_cases h
  · exact .inr ⟨x, hx, by simp⟩
  · exact .inl (by simp)
  · exact .inl (by simp)

/-- An execute stage that changes `rb` is that of ARB, and changes it by the operand. -/
theorem exec_changes_rb {i : Instr} (h : exec i s = .next t) (hne : t.rb ≠ s.rb) :
    ∃ a u2 u3 x, i = .arb a u2 u3 ∧ rdVal s a = .ok x ∧ t.rb = s.rb + x := by
  cases i with
  | add a b dest => exact absurd (storeBinary_keeps_rb h) hne
  | mul a b dest => exact absurd (storeBinary_keeps_rb h) hne
  | inp dest u2 u3 => exact absurd (execIn_keeps_rb u2 u3 h) hne
  | out a u2 u3 => exact absurd (execOut_keeps_rb u2 u3 h) hne
  | jt a target u3 => exact absurd (jumpWhen_keeps_rb h) hne
  | jf a target u3 => exact absurd (jumpWhen_keeps_rb h) hne
  | lt a b dest => exact absurd (storeBinary_keeps_rb h) hne
  | eq a b dest => exact absurd (storeBinary_keeps_rb h) hne
  | arb a u2 u3 =>
    obtain ⟨x, hx, ht⟩ := (execArbAt_rb h).resolve_left hne
    exact ⟨a, u2, u3, x, rfl, hx, ht⟩
  | hlt u1 u2 u3 =>
    cases h
    exact absurd rfl hne

/-- A step that changes `rb` is that of a fetched ARB: a stopped core and a decode fault leave it. -/
theorem step_changes_rb (h : step s = .next t) (hne : t.rb ≠ s.rb) :
    ∃ a u2 u3 x, fetch s = .ok (.arb a u2 u3) ∧ rdVal s a = .ok x ∧ t.rb = s.rb + x := by
  obtain ⟨_, rfl⟩ | ⟨i, _, hf, he⟩ | ⟨_, _, _, rfl⟩ := step_cases h
  · exact absurd rfl hne
  · obtain ⟨a, u2, u3, x, rfl, hx, ht⟩ := exec_changes_rb he hne
    exact ⟨a, u2, u3, x, hf, by simpa using hx, ht⟩
  · exact absurd rfl hne

/-- A transaction that is not STEP, when it is not refused, answers by its port. -/
theorem port_of_request {q : Request} {r : Reply} (h : request q s = .next (t, r)) (hq : q ≠ .step) :
    port s q = (t, r) := by
  unfold request answer at h
  split at h
  · cases q with
    | step => exact absurd rfl hq
    | _ => cases h; rfl
  · cases h

theorem port_keeps_rb {q : Request} (hq : ∀ p, q ≠ .reset p) : (port s q).1.rb = s.rb := by
  cases q with
  | reset p => exact absurd rfl (hq p)
  | _ => rfl

/-- At this hardware's width ARB of a literal always completes, whatever the sign of the new `rb`. -/
theorem exec_arb_immediate (s : State) (x : Int) (u2 u3 : Mode) :
    exec (.arb (.immediate x) u2 u3) s = .next ((s.setRb (s.rb + x)).advance 2) := by
  rw [exec, execArb, execArbAt_checks (x := x) rfl]; rfl

/-- Settles O28: the step and port lemmas above say what changes `rb`; the rest is what a sum `rb + n` resolves to. -/
theorem onlyArbChangesTheRelativeBase : Obligations.OnlyArbChangesTheRelativeBase := by
  refine ⟨fun _ => rfl, fun _ _ h hne => step_changes_rb h hne, fun q s t r h hstep hreset => ?_,
    fun _ _ h => ⟨rdVal_relative_of_nonneg h, effAddr_of_nonneg h⟩,
    fun _ _ h => ⟨rdVal_relative_of_neg h, effAddr_of_neg h⟩,
    fun s x u2 u3 => ⟨_, exec_arb_immediate s x u2 u3, by simp, by simp⟩⟩
  have hport := port_keeps_rb (s := s) hreset
  rwa [port_of_request h hstep] at hport

end Sys2Proof.Machine
end

section
/-! PROOFS. The illegal classes of 30_encoding.md R58 against the decoder and the fetching step, and the settlement of O4. -/

namespace Sys2Proof

theorem digit_nonneg (k : Nat) (w : Int) : 0 ≤ digit k w := Int.emod_nonneg _ (by decide)

theorem Mode.digit_eq_one_iff {m : Mode} : m.digit = 1 ↔ m = .immediate := by cases m <;> decide

theorem Mode.ofDigit_eq_none_iff {d : Int} (h : 0 ≤ d) : Mode.ofDigit d = none ↔ 2 < d := by
  unfold Mode.ofDigit
  split_ifs with h0 h1 h2
  · simp [h0]
  · simp [h1]
  · simp [h2]
  · simp only [true_iff]
    omega

theorem exists_mode_of_digit_le_two {k : Nat} {w : Int} (h : ¬ 2 < digit k w) :
    ∃ m, Mode.ofDigit (digit k w) = some m :=
  Option.ne_none_iff_exists'.mp (mt (Mode.ofDigit_eq_none_iff (digit_nonneg k w)).mp h)

theorem legalOpcodes_eq_codes : legalOpcodes = Op.all.map Op.code := rfl

theorem Op.code_mem_legalOpcodes (op : Op) : op.code ∈ legalOpcodes := by cases op <;> decide

theorem Op.ofCode_eq_none_iff {c : Int} : Op.ofCode c = none ↔ c ∉ legalOpcodes := by
  simp [Op.ofCode, legalOpcodes_eq_codes]

/-- Of the write parameters only the Immediate one is refused, whatever instruction is made of it (R54). -/
theorem Target.map_ofMode_error_iff {α : Type} {f : Target → α} {m : Mode} {n : Int} {e : DecodeError} :
    (Target.ofMode m n).map f = .error e ↔ m = .immediate ∧ .immediateWriteTarget = e := by
  cases m <;> simp [Target.ofMode, Except.map]

/-- The last class of R58, on an opcode and the mode digits of positions 1 and 3. -/
abbrev ImmediateDest (code d1 d3 : Int) : Prop := (code ∈ [1, 2, 7, 8] ∧ d3 = 1) ∨ (code = 3 ∧ d1 = 1)

/-- Position 3 is the write parameter of ADD, MUL, LT and EQ, position 1 that of IN; the other opcodes have none (R56). -/
theorem assemble_error_iff {op : Op} {m1 m2 m3 : Mode} {o : Nat → Int} {e : DecodeError} :
    assemble op m1 m2 m3 o = .error e ↔
      ImmediateDest op.code m1.digit m3.digit ∧ .immediateWriteTarget = e := by
  cases op with
  | add | mul | lt | eq =>
    simp [assemble, Target.map_ofMode_error_iff, ImmediateDest, Op.code, Mode.digit_eq_one_iff]
  | inp => simp [assemble, Target.map_ofMode_error_iff, ImmediateDest, Op.code, Mode.digit_eq_one_iff]
  | out | jt | jf | arb | hlt => simp [assemble, ImmediateDest, Op.code]

variable {w : Int} {o : Nat → Int} {op : Op}

/-- A mode digit that stands for no mode and excess digits are one class: both are `InvalidMode`. -/
theorem decode_of_badDigits (h0 : ¬ w < 0) (hop : Op.ofCode (w % 100) = some op) (hb : BadDigits w) :
    decode w o = .error .invalidMode := by
  simp only [decode, h0, hop, if_false]
  split
  next m1 m2 m3 h1 h2 h3 =>
    have r1 := m1.digit_range
    have r2 := m2.digit_range
    have r3 := m3.digit_range
    rw [← Mode.ofDigit_eq_some h1] at r1
    rw [← Mode.ofDigit_eq_some h2] at r2
    rw [← Mode.ofDigit_eq_some h3] at r3
    exact if_pos (by omega)
  next => rfl

/-- With a known opcode and good digits the decoder puts the instruction together from the word's fields (R51). -/
theorem decode_of_goodDigits (h0 : ¬ w < 0) (hop : Op.ofCode (w % 100) = some op) (hb : ¬ BadDigits w) :
    ∃ m1 m2 m3 : Mode, digit 2 w = m1.digit ∧ digit 3 w = m2.digit ∧ digit 4 w = m3.digit ∧
      decode w o = assemble op m1 m2 m3 o := by
  obtain ⟨h1, h2, h3, hsize⟩ : ¬ 2 < digit 2 w ∧ ¬ 2 < digit 3 w ∧ ¬ 2 < digit 4 w ∧ ¬ 100000 ≤ w := by
    simpa only [not_or] using hb
  obtain ⟨m1, h1⟩ := exists_mode_of_digit_le_two h1
  obtain ⟨m2, h2⟩ := exists_mode_of_digit_le_two h2
  obtain ⟨m3, h3⟩ := exists_mode_of_digit_le_two h3
  exact ⟨m1, m2, m3, Mode.ofDigit_eq_some h1, Mode.ofDigit_eq_some h2, Mode.ofDigit_eq_some h3,
    by simp [decode, h0, hop, h1, h2, h3, hsize]⟩

/-- The decoder refuses a word exactly with the first class of R58's table that the word meets. -/
theorem decode_error_iff {e : DecodeError} : decode w o = .error e ↔ illegalClass w = some e := by
  by_cases h0 : w < 0
  · simp [decode, illegalClass, h0]
  cases hop : Op.ofCode (w % 100) with
  | none => simp [decode, illegalClass, h0, hop, Op.ofCode_eq_none_iff.mp hop]
  | some op =>
    have hcode := Op.ofCode_eq_some hop
    have hmem : w % 100 ∈ legalOpcodes := hcode ▸ op.code_mem_legalOpcodes
    by_cases hb : BadDigits w
    · simp [decode_of_badDigits h0 hop hb, illegalClass, h0, hmem, hb]
    · have hclass : illegalClass w =
          if ImmediateDest (w % 100) (digit 2 w) (digit 4 w) then some .immediateWriteTarget else none := by
        rw [illegalClass, if_neg h0, if_neg (not_not.mpr hmem), if_neg hb]
      obtain ⟨m1, m2, m3, hd1, -, hd3, hdec⟩ := decode_of_goodDigits (o := o) h0 hop hb
      rw [hdec, assemble_error_iff, hclass, hcode, hd1, hd3, Option.ite_none_right_eq_some, Option.some_inj]

namespace Machine

variable {s : State}

theorem fetch_of_illegalClass {e : DecodeError} (h : illegalClass (s.mem.read s.pc) = some e) :
    fetch s = .error ⟨decodeCause e, s.mem.read s.pc⟩ := by
  rw [fetch, decode_error_iff.mpr h]

theorem fetch_of_legal (h : illegalClass (s.mem.read s.pc) = none) : ∃ i, fetch s = .ok i := by
  unfold fetch
  split
  next i _ => exact ⟨i, rfl⟩
  next hd => simp [decode_error_iff.mp hd] at h

theorem step_of_illegalClass {e : DecodeError} (hs : s.stopped = false)
    (h : illegalClass (s.mem.read s.pc) = some e) :
    step s = .next { s with runState := .faulted, faultCause := decodeCause e, faultInfo := s.mem.read s.pc } :=
  step_of_fetch_error hs (fetch_of_illegalClass h)

/-- Settles O4: `decode_error_iff` for the decoder, and through the fetch for the step. -/
theorem illegalWordsFaultByTheirFirstClass : Obligations.IllegalWordsFaultByTheirFirstClass := by
  refine ⟨fun _ _ _ => decode_error_iff, fun s hs => ?_⟩
  split
  next h => exact step_of_illegalClass hs h
  next h => exact step_of_illegalClass hs h
  next h => exact step_of_illegalClass hs h
  next h =>
    obtain ⟨i, hi⟩ := fetch_of_legal h
    exact ⟨i, hi, step_of_fetch_ok hs hi⟩

end Machine

end Sys2Proof
end

section
/-! PROOFS. Operand resolution in the modes that do not use `rb` (40_execution_cycle.md R76, R78), and the settlement of
O7; Relative mode is resolved above, with O28. -/

namespace Sys2Proof.Machine

variable {s : State} {n : Int}

theorem rdVal_immediate (s : State) (n : Int) : rdVal s (.immediate n) = .ok n := rfl

theorem rdVal_position_of_nonneg (h : 0 ≤ n) : rdVal s (.position n) = .ok (s.mem.read n.toNat) := by
  rw [rdVal, effAddr_of_nonneg h]; rfl

theorem rdVal_position_of_neg (h : n < 0) : rdVal s (.position n) = .error ⟨.negativeAddress, n⟩ := by
  rw [rdVal, effAddr_of_neg h]; rfl

/-- Settles O7: each mode has one effective address, and its sign decides between a cell and the trap. -/
theorem operandFormsResolveByTheRule : Obligations.OperandFormsResolveByTheRule :=
  fun s n => ⟨rdVal_immediate s n,
    fun h => ⟨rdVal_position_of_nonneg h, effAddr_of_nonneg h⟩,
    fun h => ⟨rdVal_position_of_neg h, effAddr_of_neg h⟩,
    fun h => ⟨rdVal_relative_of_nonneg h, effAddr_of_nonneg h⟩,
    fun h => ⟨rdVal_relative_of_neg h, effAddr_of_neg h⟩⟩

end Sys2Proof.Machine
end

section
/-! PROOFS. The instructions with two sources and a destination: their encoding (30_encoding.md R51, R54) and their
execute stage (40_execution_cycle.md R81, R84), and the settlement of O12. -/

namespace Sys2Proof

theorem readForm_digit (m : Mode) (n : Int) : readForm m.digit n = Operand.ofMode m n := by cases m <;> rfl

/-- A write parameter's mode digit is 1, and refused, or it is the digit of a write form (R54). -/
theorem Target.map_ofMode {α : Type} (f : Target → α) (m : Mode) (n : Int) :
    (Target.ofMode m n).map f =
      if m.digit = 1 then .error .immediateWriteTarget else .ok (f (writeForm m.digit n)) := by
  cases m <;> rfl

/-- An operation put together from two read parameters and a write parameter at position 3 decodes by R51 and R58. -/
theorem decodesWithDest_of_assemble {op : Op} {mk : Operand → Operand → Target → Instr}
    (hmk : ∀ m1 m2 m3 o, assemble op m1 m2 m3 o =
      (Target.ofMode m3 (o 3)).map (mk (Operand.ofMode m1 (o 1)) (Operand.ofMode m2 (o 2)))) :
    DecodesWithDest op.code mk := by
  intro w o h0 hcode
  have hop : Op.ofCode (w % 100) = some op := hcode ▸ Op.ofCode_code op
  by_cases hb : BadDigits w
  · rw [if_pos hb, decode_of_badDigits (not_lt.mpr h0) hop hb]
  · obtain ⟨m1, m2, m3, h1, h2, h3, hdec⟩ := decode_of_goodDigits (o := o) (not_lt.mpr h0) hop hb
    rw [if_neg hb, hdec, hmk, Target.map_ofMode, h1, h2, h3, readForm_digit, readForm_digit]

namespace Machine

variable {mk : Operand → Operand → Target → Instr} {f : Int → Int → Int}

/-- The first parameter that does not resolve faults, whatever is computed (R81). -/
theorem faultsOnAddresses_of_storeBinary {compute : Int → Int → Except Trap Int}
    (hexec : ∀ a b d s, exec (mk a b d) s = storeBinary compute a b d s) : FaultsOnAddresses mk := by
  intro a b d s k
  rw [hexec]
  exact ⟨storeBinary_faults_first, fun _ => storeBinary_faults_second, fun _ _ => storeBinary_faults_dest⟩

theorem writesResult_of_storeBinary
    (hexec : ∀ a b d s, exec (mk a b d) s = storeBinary (fun x y => .ok (f x y)) a b d s) : WritesResult mk f := by
  intro a b d s x y p ha hb hd
  rw [hexec]
  exact storeBinary_completes ha hb hd rfl

/-- The range check stands between the exact result and the store (R84). -/
theorem writesResultAtEveryWidth_of_storeBinary
    (hexec : ∀ width a b d s,
      execAt width (mk a b d) s = storeBinary (fun x y => checkFits width (f x y)) a b d s) :
    WritesResultAtEveryWidth mk f := by
  intro width a b d s x y p ha hb hd
  rw [hexec]
  refine ⟨fun hfit => storeBinary_completes ha hb hd (checkFits_ok_iff.mpr ⟨hfit, rfl⟩), fun hfit => ?_⟩
  have hcheck : checkFits width (f x y) = .error ⟨.valueOverflow, f x y⟩ := checkFits_error_iff.mpr ⟨hfit, rfl⟩
  exact storeBinary_faults_result (compute := fun x y => checkFits width (f x y)) ha hb hd hcheck

/-- Settles O12: ADD and MUL are the same `storeBinary` around the exact sum and product, and their range check is
void at `inf`. -/
theorem arithmeticWritesTheExactResult : Obligations.ArithmeticWritesTheExactResult :=
  ⟨decodesWithDest_of_assemble (op := .add) fun _ _ _ _ => rfl,
    writesResult_of_storeBinary fun _ _ _ _ => rfl,
    writesResultAtEveryWidth_of_storeBinary fun _ _ _ _ _ => rfl,
    faultsOnAddresses_of_storeBinary fun _ _ _ _ => rfl,
    decodesWithDest_of_assemble (op := .mul) fun _ _ _ _ => rfl,
    writesResult_of_storeBinary fun _ _ _ _ => rfl,
    writesResultAtEveryWidth_of_storeBinary fun _ _ _ _ _ => rfl,
    faultsOnAddresses_of_storeBinary fun _ _ _ _ => rfl⟩

end Machine

end Sys2Proof
end

section
/-! PROOFS. IN and OUT (42_io.md R100, R101): their encoding, the RUN that a pause ends (47_host_operations.md R147), and
the settlement of O15 and O16. -/

namespace Sys2Proof

theorem modeOf_digit (m : Mode) : modeOf m.digit = m := by cases m <;> rfl

/-- What a non-negative word with a known opcode decodes to: its mode digits are tested before anything is put together
(R58), and then they are those of three modes. -/
theorem decode_of_opcode {op : Op} {w : Int} {o : Nat → Int} {r : Except DecodeError Instr}
    (h0 : 0 ≤ w) (hcode : w % 100 = op.code)
    (hr : ∀ m1 m2 m3 : Mode, digit 2 w = m1.digit → digit 3 w = m2.digit → digit 4 w = m3.digit →
      assemble op m1 m2 m3 o = r) :
    decode w o = if BadDigits w then .error .invalidMode else r := by
  have hop : Op.ofCode (w % 100) = some op := hcode ▸ Op.ofCode_code op
  split_ifs with hb
  · exact decode_of_badDigits (not_lt.mpr h0) hop hb
  · obtain ⟨m1, m2, m3, h1, h2, h3, hdec⟩ := decode_of_goodDigits (o := o) (not_lt.mpr h0) hop hb
    rw [hdec, hr m1 m2 m3 h1 h2 h3]

/-- The write parameter of IN stands at position 1, so its digit is the one refused as Immediate (R54, R100). -/
theorem decode_inp {w : Int} {o : Nat → Int} (h0 : 0 ≤ w) (hcode : w % 100 = 3) :
    decode w o =
      if BadDigits w then .error .invalidMode
      else if digit 2 w = 1 then .error .immediateWriteTarget
      else .ok (.inp (writeForm (digit 2 w) (o 1)) (modeOf (digit 3 w)) (modeOf (digit 4 w))) :=
  decode_of_opcode (op := .inp) h0 hcode fun m1 m2 m3 h1 h2 h3 => by
    rw [h1, h2, h3, modeOf_digit, modeOf_digit, assemble, Target.map_ofMode]

/-- An operation put together from one read parameter and two unused digits decodes by R51 and R58. -/
theorem decodesWithSource_of_assemble {op : Op} {mk : Operand → Mode → Mode → Instr}
    (hmk : ∀ m1 m2 m3 o, assemble op m1 m2 m3 o = .ok (mk (Operand.ofMode m1 (o 1)) m2 m3)) :
    DecodesWithSource op.code mk :=
  fun _ o h0 hcode => decode_of_opcode h0 hcode fun m1 m2 m3 h1 h2 h3 => by
    rw [h1, h2, h3, modeOf_digit, modeOf_digit, readForm_digit, hmk]

namespace Machine

variable {s t : State}

@[simp] theorem wrAddr_resume (s : State) (d : Target) : wrAddr s.resume d = wrAddr s d := by
  cases d <;> rfl

/-- A step resumes a paused core itself, so it does not matter whether that was done before (R148). -/
theorem step_resume (hs : s.stopped = false) : step s.resume = step s := by
  have hresumed : s.resume.stopped = false := rfl
  simp only [step, stepWith, hs, hresumed]
  rfl

/-- RUN returns after the first step that leaves the core not `Running` (R147). -/
theorem runReturns_of_step (hs : s.stopped = false) (h : step s = .next t) (ht : t.runState ≠ .running) :
    RunReturns s t :=
  ⟨1, by simp [runWithin, runLoop, hs, step_resume hs, h, ht]⟩

/-- A starved IN at the pc changes the run state alone, whether the core was running or already paused (R100, R176). -/
theorem step_of_starved_inp {d : Target} {u2 u3 : Mode} {p : Nat} (hs : s.stopped = false)
    (hf : fetch s = .ok (.inp d u2 u3)) (hd : wrAddr s d = .ok p) (hq : s.inq = []) : step s = .next s.pause := by
  rw [step_of_fetch_ok hs hf]
  exact execIn_pauses u2 u3 ((wrAddr_resume s d).trans hd) hq

/-- Settles O15: the destination decides first, then the queue, and the pause is a step after which RUN returns. -/
theorem inputStoresTheOldestOrPauses : Obligations.InputStoresTheOldestOrPauses :=
  ⟨fun _ _ => decode_inp,
    fun _ u2 u3 _ _ _ _ hd hq => execIn_completes u2 u3 hd hq,
    fun _ u2 u3 _ _ hd hq => ⟨execIn_pauses u2 u3 hd hq,
      fun hs hf => runReturns_of_step hs (step_of_starved_inp hs hf hd hq) (by simp)⟩,
    fun _ u2 u3 _ _ hd => execIn_faults u2 u3 hd⟩

/-- Settles O16: whether the source resolves decides between the append and the fault. -/
theorem outputAppendsTheValue : Obligations.OutputAppendsTheValue :=
  ⟨decodesWithSource_of_assemble (op := .out) fun _ _ _ _ => rfl,
    fun _ u2 u3 _ _ ha => execOut_completes u2 u3 ha,
    fun _ u2 u3 _ _ ha => execOut_faults u2 u3 ha⟩

end Machine

end Sys2Proof
end

section
/-! PROOFS. JT and JF (43_jumps.md R110 to R112): their encoding, where a taken jump goes, and the settlement of O17. -/

namespace Sys2Proof

/-- An operation put together from two read parameters and one unused digit decodes by R51 and R58. -/
theorem decodesAsJump_of_assemble {op : Op} {mk : Operand → Operand → Mode → Instr}
    (hmk : ∀ m1 m2 m3 o, assemble op m1 m2 m3 o = .ok (mk (Operand.ofMode m1 (o 1)) (Operand.ofMode m2 (o 2)) m3)) :
    DecodesAsJump op.code mk :=
  fun _ o h0 hcode => decode_of_opcode h0 hcode fun m1 m2 m3 h1 h2 h3 => by
    rw [h1, h2, h3, modeOf_digit, readForm_digit, readForm_digit, hmk]

namespace Machine

variable {s : State} {condition : Int → Bool} {a target : Operand} {x y : Int}

theorem isNonzero_iff : isNonzero x = true ↔ x ≠ 0 := bne_iff_ne

theorem isZero_iff : isZero x = true ↔ x = 0 := beq_iff_eq

theorem jumpWhen_taken_of_nonneg (ha : rdVal s a = .ok x) (ht : rdVal s target = .ok y) (hc : condition x = true)
    (hy : 0 ≤ y) : jumpWhen condition a target s = .next (s.goto y.toNat) := by
  rw [jumpWhen_taken ha ht hc, effAddr_of_nonneg hy]; rfl

/-- A negative target faults at the jump, with the target as info (R112). -/
theorem jumpWhen_taken_of_neg (ha : rdVal s a = .ok x) (ht : rdVal s target = .ok y) (hc : condition x = true)
    (hy : y < 0) : jumpWhen condition a target s = .next (s.enterFault ⟨.negativeAddress, y⟩) := by
  rw [jumpWhen_taken ha ht hc, effAddr_of_neg hy]; rfl

/-- An instruction that runs `jumpWhen` follows the rule of the proposition its test decides; the target is resolved
whichever way the test goes (R81). -/
theorem jumpsWhen_of_jumpWhen {mk : Operand → Operand → Mode → Instr} {P : Int → Prop}
    (hexec : ∀ a t u s, exec (mk a t u) s = jumpWhen condition a t s)
    (hP : ∀ {x}, condition x = true ↔ P x) : JumpsWhen mk P := by
  intro a t u s
  rw [hexec]
  exact ⟨fun _ _ ha ht hx hy => jumpWhen_taken_of_nonneg ha ht (hP.mpr hx) hy,
    fun _ _ ha ht hx hy => jumpWhen_taken_of_neg ha ht (hP.mpr hx) hy,
    fun _ _ ha ht hx => jumpWhen_not_taken ha ht (Bool.eq_false_iff.mpr fun hc => hx (hP.mp hc)),
    fun _ ha => jumpWhen_faults_first ha,
    fun _ _ ha ht => jumpWhen_faults_second ha ht⟩

/-- Settles O17: JT and JF are the same `jumpWhen` around the tests for a non-zero and for a zero value. -/
theorem jumpsFollowTheirCondition : Obligations.JumpsFollowTheirCondition :=
  ⟨decodesAsJump_of_assemble (op := .jt) fun _ _ _ _ => rfl,
    jumpsWhen_of_jumpWhen (fun _ _ _ _ => rfl) isNonzero_iff,
    decodesAsJump_of_assemble (op := .jf) fun _ _ _ _ => rfl,
    jumpsWhen_of_jumpWhen (fun _ _ _ _ => rfl) isZero_iff⟩

end Machine

end Sys2Proof
end

section
/-! PROOFS. LT and EQ (44_compare.md R120 to R122): their encoding, the 1 or 0 they write, the boundary table, and the
settlement of O13 and O14. -/

namespace Sys2Proof.Machine

variable {mk : Operand → Operand → Target → Instr} {f : Int → Int → Int} {a b : Operand} {d : Target} {s : State}
  {x y : Int} {p : Nat}

theorem lessThan_of_lt (h : x < y) : lessThan x y = 1 := if_pos h

/-- The comparison is strict, so equal values are not less (R120). -/
theorem lessThan_of_le (h : y ≤ x) : lessThan x y = 0 := if_neg (not_lt.mpr h)

theorem equalTo_self (x : Int) : equalTo x x = 1 := if_pos rfl

theorem equalTo_of_ne (h : x ≠ y) : equalTo x y = 0 := if_neg h

theorem execLt_writesResult : WritesResult .lt lessThan := writesResult_of_storeBinary fun _ _ _ _ => rfl

theorem execEq_writesResult : WritesResult .eq equalTo := writesResult_of_storeBinary fun _ _ _ _ => rfl

/-- The destination reads back as the result, also where it held another value before or was a source (R45). -/
theorem read_dest_of_writesResult (h : WritesResult mk f) (ha : rdVal s a = .ok x) (hb : rdVal s b = .ok y)
    (hd : wrAddr s d = .ok p) : ∃ t, exec (mk a b d) s = .next t ∧ t.mem.read p = f x y :=
  ⟨_, h a b d s x y p ha hb hd, Memory.read_write_same⟩

/-- Settles O13: LT and EQ are the same `storeBinary` around the two comparisons, and no width is asked for. -/
theorem comparisonsWriteOneOrZero : Obligations.ComparisonsWriteOneOrZero :=
  ⟨decodesWithDest_of_assemble (op := .lt) fun _ _ _ _ => rfl,
    execLt_writesResult,
    faultsOnAddresses_of_storeBinary fun _ _ _ _ => rfl,
    decodesWithDest_of_assemble (op := .eq) fun _ _ _ _ => rfl,
    execEq_writesResult,
    faultsOnAddresses_of_storeBinary fun _ _ _ _ => rfl,
    fun _ _ _ _ _ => ⟨rfl, rfl⟩⟩

/-- Settles O14: the operands enter only by their values, and on each row the order of the two values gives both
results. -/
theorem comparisonBoundaryTable : Obligations.ComparisonBoundaryTable := by
  intro n row hrow a b d s p ha hb hd
  have hresults : lessThan row.1 row.2.1 = row.2.2.1 ∧ equalTo row.1 row.2.1 = row.2.2.2 := by
    simp only [List.mem_cons, List.not_mem_nil, or_false] at hrow
    obtain rfl | rfl | rfl | rfl | rfl := hrow
    · exact ⟨lessThan_of_le le_rfl, equalTo_self n⟩
    · exact ⟨lessThan_of_lt (sub_one_lt n), equalTo_of_ne (sub_one_lt n).ne⟩
    · exact ⟨lessThan_of_le (lt_add_one n).le, equalTo_of_ne (lt_add_one n).ne'⟩
    · exact ⟨lessThan_of_le (sub_one_lt n).le, equalTo_of_ne (sub_one_lt n).ne'⟩
    · exact ⟨lessThan_of_lt (lt_add_one n), equalTo_of_ne (lt_add_one n).ne⟩
  obtain ⟨hlt, heq⟩ := hresults
  rw [← hlt, ← heq]
  exact ⟨read_dest_of_writesResult execLt_writesResult ha hb hd, read_dest_of_writesResult execEq_writesResult ha hb hd⟩

end Sys2Proof.Machine
end

section
/-! PROOFS. ARB and Relative mode (45_relative_base.md R130, R131): what ARB does at every width, Relative parameters
against Position parameters computed by hand, the execute stages under another `rb`, and the settlement of O18 and O8. -/

namespace Sys2Proof.Machine

variable {s t : State}

section Arb

variable {width : Option Nat} {a : Operand} {x : Int}

theorem execArbAt_completes (ha : rdVal s a = .ok x) (hfit : fits width (s.rb + x) = true) :
    execArbAt width a s = .next ((s.setRb (s.rb + x)).advance 2) := by
  rw [execArbAt_checks ha, checkFits_ok_iff.mpr ⟨hfit, rfl⟩]; rfl

theorem execArbAt_overflows (ha : rdVal s a = .ok x) (hfit : fits width (s.rb + x) = false) :
    execArbAt width a s = .next (s.enterFault ⟨.valueOverflow, s.rb + x⟩) := by
  rw [execArbAt_checks ha, checkFits_error_iff.mpr ⟨hfit, rfl⟩]; rfl

/-- Settles O18: whether the operand resolves and whether the sum fits decide; at `inf` every sum fits. -/
theorem arbAddsToTheRelativeBase : Obligations.ArbAddsToTheRelativeBase :=
  ⟨decodesWithSource_of_assemble (op := .arb) fun _ _ _ _ => rfl,
    fun _ _ _ _ _ ha => execArbAt_completes ha rfl,
    fun _ _ _ _ _ _ ha => ⟨execArbAt_completes ha, execArbAt_overflows ha⟩,
    fun _ _ _ _ _ ha => execArbAt_faults ha⟩

end Arb

section ByHand

@[simp] theorem rdVal_byHand (s : State) (a : Operand) : rdVal s (a.byHand s.rb) = rdVal s a := by cases a <;> rfl

@[simp] theorem wrAddr_byHand (s : State) (d : Target) : wrAddr s (d.byHand s.rb) = wrAddr s d := by cases d <;> rfl

theorem storeBinary_byHand (compute : Int → Int → Except Trap Int) (a b : Operand) (d : Target) (s : State) :
    storeBinary compute (a.byHand s.rb) (b.byHand s.rb) (d.byHand s.rb) s = storeBinary compute a b d s := by
  simp only [storeBinary, rdVal_byHand, wrAddr_byHand]

theorem jumpWhen_byHand (condition : Int → Bool) (a target : Operand) (s : State) :
    jumpWhen condition (a.byHand s.rb) (target.byHand s.rb) s = jumpWhen condition a target s := by
  simp only [jumpWhen, rdVal_byHand]

/-- An execute stage reads its parameters only through `rdVal` and `wrAddr`, which do not tell Relative mode from the
address computed by hand. -/
theorem exec_byHand (i : Instr) (s : State) : exec (i.byHand s.rb) s = exec i s := by
  cases i with
  | add a b d => exact storeBinary_byHand _ a b d s
  | mul a b d => exact storeBinary_byHand _ a b d s
  | inp d u2 u3 => simp only [Instr.byHand, exec, execIn, wrAddr_byHand]
  | out a u2 u3 => simp only [Instr.byHand, exec, execOut, rdVal_byHand]
  | jt a target u3 => exact jumpWhen_byHand _ a target s
  | jf a target u3 => exact jumpWhen_byHand _ a target s
  | lt a b d => exact storeBinary_byHand _ a b d s
  | eq a b d => exact storeBinary_byHand _ a b d s
  | arb a u2 u3 => simp only [Instr.byHand, exec, execArb, execArbAt, rdVal_byHand]
  | hlt u1 u2 u3 => rfl

end ByHand

section WithoutRelative

variable {a b target : Operand} {d : Target} {r : Int}

/-- A read parameter that computing by hand leaves alone is not Relative, so it does not see `rb`. -/
theorem rdVal_setRb (ha : a.byHand r = a) : rdVal (s.setRb r) a = rdVal s a := by
  cases a with
  | position n => rfl
  | immediate n => rfl
  | relative n => cases ha

theorem wrAddr_setRb (hd : d.byHand r = d) : wrAddr (s.setRb r) d = wrAddr s d := by
  cases d with
  | position n => rfl
  | relative n => cases hd

/-- Taking a fault commutes with setting `rb`, so an execute stage commutes when its completion does. -/
theorem settle_setRb {before after : Except Trap State} (h : settle s before = .next t)
    (heq : after = (·.setRb r) <$> before) : settle (s.setRb r) after = .next (t.setRb r) := by
  subst heq
  obtain rfl | ⟨e, rfl, rfl⟩ := settle_next_iff.mp h
  · rfl
  · rfl

theorem storeBinary_setRb {compute : Int → Int → Except Trap Int} (ha : a.byHand r = a) (hb : b.byHand r = b)
    (hd : d.byHand r = d) (h : storeBinary compute a b d s = .next t) :
    storeBinary compute a b d (s.setRb r) = .next (t.setRb r) := by
  refine settle_setRb h ?_
  rw [rdVal_setRb ha, rdVal_setRb hb, wrAddr_setRb hd]
  simp only [map_bind, map_pure]
  rfl

theorem jumpWhen_setRb {condition : Int → Bool} (ha : a.byHand r = a) (ht : target.byHand r = target)
    (h : jumpWhen condition a target s = .next t) :
    jumpWhen condition a target (s.setRb r) = .next (t.setRb r) := by
  refine settle_setRb h ?_
  rw [rdVal_setRb ha, rdVal_setRb ht]
  simp only [map_bind, map_pure, apply_ite]
  rfl

theorem execIn_setRb (u2 u3 : Mode) (hd : d.byHand r = d) (h : execIn d u2 u3 s = .next t) :
    execIn d u2 u3 (s.setRb r) = .next (t.setRb r) := by
  obtain ⟨p, v, rest, hp, hq, rfl⟩ | ⟨p, hp, hq, rfl⟩ | ⟨e, he, rfl⟩ := execIn_cases u2 u3 h
  · exact execIn_completes u2 u3 ((wrAddr_setRb hd).trans hp) hq
  · exact execIn_pauses u2 u3 ((wrAddr_setRb hd).trans hp) hq
  · exact execIn_faults u2 u3 ((wrAddr_setRb hd).trans he)

theorem execOut_setRb (u2 u3 : Mode) (ha : a.byHand r = a) (h : execOut a u2 u3 s = .next t) :
    execOut a u2 u3 (s.setRb r) = .next (t.setRb r) := by
  obtain ⟨x, hx, rfl⟩ | ⟨e, he, rfl⟩ := execOut_cases u2 u3 h
  · exact execOut_completes u2 u3 ((rdVal_setRb ha).trans hx)
  · exact execOut_faults u2 u3 ((rdVal_setRb ha).trans he)

/-- Without a Relative parameter `rb` passes through every execute stage but that of ARB. -/
theorem exec_setRb {i : Instr} (hi : i.byHand r = i) (hop : i.op ≠ .arb) (h : exec i s = .next t) :
    exec i (s.setRb r) = .next (t.setRb r) := by
  cases i with
  | add a b d =>
    obtain ⟨ha, hb, hd⟩ := Instr.add.inj hi
    exact storeBinary_setRb ha hb hd h
  | mul a b d =>
    obtain ⟨ha, hb, hd⟩ := Instr.mul.inj hi
    exact storeBinary_setRb ha hb hd h
  | inp d u2 u3 =>
    obtain ⟨hd, -, -⟩ := Instr.inp.inj hi
    exact execIn_setRb u2 u3 hd h
  | out a u2 u3 =>
    obtain ⟨ha, -, -⟩ := Instr.out.inj hi
    exact execOut_setRb u2 u3 ha h
  | jt a target u3 =>
    obtain ⟨ha, ht, -⟩ := Instr.jt.inj hi
    exact jumpWhen_setRb ha ht h
  | jf a target u3 =>
    obtain ⟨ha, ht, -⟩ := Instr.jf.inj hi
    exact jumpWhen_setRb ha ht h
  | lt a b d =>
    obtain ⟨ha, hb, hd⟩ := Instr.lt.inj hi
    exact storeBinary_setRb ha hb hd h
  | eq a b d =>
    obtain ⟨ha, hb, hd⟩ := Instr.eq.inj hi
    exact storeBinary_setRb ha hb hd h
  | arb a u2 u3 => exact absurd rfl hop
  | hlt u1 u2 u3 =>
    cases h
    rfl

end WithoutRelative

/-- Settles O8: by hand or not, a parameter resolves to the same cell; and what resolves without `rb` executes
without it. -/
theorem relativeModeIsPositionModeByHand : Obligations.RelativeModeIsPositionModeByHand :=
  ⟨fun i s => (exec_byHand i s).symm, fun _ _ _ r hi hop h => exec_setRb (hi r) hop h⟩

end Sys2Proof.Machine
end

section
/-! PROOFS. RUN as STEP repeated (47_host_operations.md R147), and the settlement of O44. -/

namespace Sys2Proof.Machine

variable {s t u : State} {n k j : Nat}

/-- The state after step number `k + 1` from `s` is `t`, and it is the first that is not `Running`. -/
def StopsAfter (k : Nat) (s t : State) : Prop :=
  core.run (k + 1) s = .next t ∧ t.runState ≠ .running ∧
    ∀ m, m < k → ∃ u : State, core.run (m + 1) s = .next u ∧ u.runState = .running

theorem core_run_one (h : step s = .next u) : core.run 1 s = .next u := core_run_succ h 0

/-- A run of one step or more resumes a paused core itself. -/
theorem core_run_resume (hs : s.stopped = false) (k : Nat) : core.run (k + 1) s.resume = core.run (k + 1) s := by
  obtain ⟨u, h⟩ := step_answers_next s
  rw [core_run_succ h, core_run_succ ((step_resume hs).trans h)]

theorem stopsAfter_resume (hs : s.stopped = false) : StopsAfter k s.resume t ↔ StopsAfter k s t := by
  simp only [StopsAfter, core_run_resume hs]

theorem stopsAfter_zero (h : step s = .next u) : StopsAfter 0 s t ↔ t = u ∧ u.runState ≠ .running := by
  simp only [StopsAfter, core_run_one h, Nat.not_lt_zero, false_implies, implies_true, and_true]
  constructor
  · rintro ⟨⟨⟩, ht⟩
    exact ⟨rfl, ht⟩
  · rintro ⟨rfl, ht⟩
    exact ⟨rfl, ht⟩

/-- Stopping later than after the first step is to step to a `Running` state and stop from there. -/
theorem stopsAfter_succ (h : step s = .next u) :
    StopsAfter (k + 1) s t ↔ u.runState = .running ∧ StopsAfter k u t := by
  have first : (∃ v : State, core.run 0 u = .next v ∧ v.runState = .running) ↔ u.runState = .running := by
    constructor
    · rintro ⟨_, ⟨⟩, hv⟩
      exact hv
    · exact fun hu => ⟨u, rfl, hu⟩
  simp only [StopsAfter, Nat.forall_lt_succ_left, core_run_succ h, first]
  tauto

/-- There is only one first state that is not `Running`. -/
theorem StopsAfter.unique (ht : StopsAfter k s t) (hu : StopsAfter j s u) : t = u := by
  obtain ⟨hrun, hstop, hbefore⟩ := ht
  obtain ⟨hrun', hstop', hbefore'⟩ := hu
  rcases lt_trichotomy k j with hlt | rfl | hlt
  · obtain ⟨v, hv, hrunning⟩ := hbefore' k hlt
    cases hrun.symm.trans hv
    exact absurd hrunning hstop
  · cases hrun.symm.trans hrun'
    rfl
  · obtain ⟨v, hv, hrunning⟩ := hbefore j hlt
    cases hrun'.symm.trans hv
    exact absurd hrunning hstop'

theorem runLoop_succ (h : step s = .next u) (n : Nat) :
    runLoop (n + 1) s = if u.runState = .running then runLoop n u else some u := by
  rw [runLoop, h]

/-- The cut-off loop returns the first state that is not `Running`, if it comes within the cut-off. -/
theorem runLoop_eq_some_iff : runLoop n s = some t ↔ ∃ k, k < n ∧ StopsAfter k s t := by
  induction n generalizing s with
  | zero => simp [runLoop]
  | succ n ih =>
    obtain ⟨u, h⟩ := step_answers_next s
    simp only [runLoop_succ h, Nat.exists_lt_succ_left, stopsAfter_zero h, stopsAfter_succ h]
    by_cases hu : u.runState = .running
    · simp [hu, ih]
    · simp [hu, eq_comm]

theorem runReturns_of_stopped (hs : s.stopped = true) : RunReturns s t ↔ t = s := by
  simp [RunReturns, runWithin, hs, eq_comm]

theorem runReturns_iff_stopsAfter (hs : s.stopped = false) : RunReturns s t ↔ ∃ k, StopsAfter k s t := by
  simp only [RunReturns, runWithin, hs, Bool.false_eq_true, if_false, runLoop_eq_some_iff, stopsAfter_resume hs]
  exact ⟨fun ⟨_, k, _, h⟩ => ⟨k, h⟩, fun ⟨k, h⟩ => ⟨k + 1, k, k.lt_succ_self, h⟩⟩

theorem RunReturns.not_running (h : RunReturns s t) : t.runState ≠ .running := by
  cases hs : s.stopped with
  | true =>
    cases (runReturns_of_stopped hs).mp h
    intro hrunning
    cases hs.symm.trans (not_stopped_iff.mpr (.inl hrunning))
  | false =>
    obtain ⟨_, _, hstop, _⟩ := (runReturns_iff_stopsAfter hs).mp h
    exact hstop

theorem RunReturns.unique (ht : RunReturns s t) (hu : RunReturns s u) : t = u := by
  cases hs : s.stopped with
  | true => exact ((runReturns_of_stopped hs).mp ht).trans ((runReturns_of_stopped hs).mp hu).symm
  | false =>
    obtain ⟨_, ht⟩ := (runReturns_iff_stopsAfter hs).mp ht
    obtain ⟨_, hu⟩ := (runReturns_iff_stopsAfter hs).mp hu
    exact ht.unique hu

theorem pause_of_paused (hp : s.runState = .paused) : s.pause = s := by
  rw [State.pause, State.setRunState, ← hp]

/-- A RUN of a starved paused core only pauses it again (R147). -/
theorem runReturns_of_starved (hp : s.runState = .paused) (h : StarvedAtPc s) : RunReturns s t ↔ t = s := by
  obtain ⟨_, _, _, _, hf, hd, hq⟩ := h
  have hs : s.stopped = false := not_stopped_iff.mpr (.inr hp)
  have hstep : step s = .next s := (step_of_starved_inp hs hf hd hq).trans (congrArg _ (pause_of_paused hp))
  have hself : RunReturns s s := runReturns_of_step hs hstep (by simp [hp])
  exact ⟨fun ht => ht.unique hself, fun ht => ht ▸ hself⟩

/-- Settles O44: by `runLoop_eq_some_iff` a RUN returns exactly where the steps first leave `Running`, which is one place. -/
theorem runIsStepUntilNotRunning : Obligations.RunIsStepUntilNotRunning :=
  ⟨fun _ _ => runReturns_of_stopped, fun _ _ => runReturns_iff_stopsAfter, fun _ _ => RunReturns.not_running,
    fun _ _ _ => RunReturns.unique, fun _ hp h _ => runReturns_of_starved hp h⟩

end Sys2Proof.Machine
end

section
/-! PROOFS. The ports of the queues, the memory and the run state (47_host_operations.md R150 to R161), and the settlement
of O38 to O41. -/

namespace Sys2Proof.Machine

variable {s : State}

/-- A transaction that is not STEP answers by its port when its arguments are in their domain; the converse of
`port_of_request`. -/
theorem request_of_inDomain {q : Request} (s : State) (hd : q.inDomain Config.valueBits = true) (hq : q ≠ .step) :
    request q s = .next (port s q) := by
  unfold request answer
  rw [if_pos hd]
  cases q with
  | step => exact absurd rfl hq
  | _ => rfl

theorem request_addInput (v : Int) (s : State) : request (.addInput v) s = .next (s.setInq (s.inq ++ [v]), .none) :=
  request_of_inDomain s rfl nofun

/-- Settles O38: every value is in the domain at this hardware's width, and the port replaces the input queue alone. -/
theorem addInputAppends : Obligations.AddInputAppends := request_addInput

theorem request_hasOutput (s : State) : request .hasOutput s = .next (s, .flag (decide (s.outq ≠ []))) := by
  rw [request_of_inDomain (q := .hasOutput) s rfl nofun, port]
  cases s.outq <;> rfl

theorem request_popOutputFront (s : State) :
    request .popOutputFront s = .next (s.setOutq s.outq.tail, .popped s.outq.head?) :=
  request_of_inDomain s rfl nofun

theorem request_popOutputBack (s : State) :
    request .popOutputBack s = .next (s.setOutq s.outq.dropLast, .popped s.outq.getLast?) :=
  request_of_inDomain s rfl nofun

theorem setOutq_nil_of_empty (h : s.outq = []) : s.setOutq [] = s := by
  rw [State.setOutq, ← h]

/-- Settles O39: what the pops' list operations give on an empty queue, behind a front and before a back. -/
theorem outputPortsTakeFromEitherEnd : Obligations.OutputPortsTakeFromEitherEnd := by
  refine fun s => ⟨request_hasOutput s, fun h => ⟨?_, ?_⟩, fun v rest h => ?_, fun v rest h => ?_⟩
  · rw [request_popOutputFront, h, List.tail_nil, List.head?_nil, setOutq_nil_of_empty h]
  · rw [request_popOutputBack, h, List.dropLast_nil, List.getLast?_nil, setOutq_nil_of_empty h]
  · rw [request_popOutputFront, h, List.tail_cons, List.head?_cons]
    rfl
  · rw [request_popOutputBack, h, List.dropLast_concat, List.getLast?_concat]
    rfl

theorem request_readMem (a : Nat) (s : State) : request (.readMem a) s = .next (s, .value (s.mem.read a)) :=
  request_of_inDomain s (decide_eq_true (Int.natCast_nonneg a)) nofun

theorem request_writeMem (a : Nat) (v : Int) (s : State) : request (.writeMem a v) s = .next (s.store a v, .none) :=
  request_of_inDomain s (by simp [Request.inDomain, fits, Config.valueBits]) nofun

theorem read_load (p : List Int) (a : Nat) : (State.load p).mem.read a = p.getD a 0 := by
  have h := Memory.read_image (vs := p) (a := 0) (k := a)
  rwa [Nat.zero_add] at h

theorem read_store (s : State) (a : Nat) (v : Int) : (s.store a v).mem.read = patched s.mem a v :=
  funext fun _ => Memory.read_write

/-- Settles O40: WRITE_MEM is a store, so the cells read afterwards are those of `read_store`, for the host and for the
next fetch; the step lemmas say what is executed from there. -/
theorem memoryPortsReadAndPatchOneCell : Obligations.MemoryPortsReadAndPatchOneCell := by
  refine fun a s => ⟨request_readMem a s, fun p => (request_readMem a _).trans (by rw [read_load]),
    fun v => ⟨s.store a v, request_writeMem a v s, rfl, congrFun (read_store s a v), ?_,
      fun hs => ⟨fun _ hf => step_of_fetch_ok hs hf, fun _ hf => step_of_fetch_error hs hf⟩,
      fun hs => step_of_stopped hs⟩⟩
  rw [← read_store]
  rfl

theorem request_isFinished (s : State) : request .isFinished s = .next (s, .flag (decide (s.runState = .halted))) :=
  request_of_inDomain s rfl nofun

theorem request_isAwaitingInput (s : State) :
    request .isAwaitingInput s = .next (s, .flag (decide (s.runState = .paused))) :=
  request_of_inDomain s rfl nofun

/-- Settles O41: both ports read the run state, which ADD_INPUT leaves alone. -/
theorem statusPortsTellTheRunState : Obligations.StatusPortsTellTheRunState :=
  fun s => ⟨request_isFinished s, request_isAwaitingInput s,
    fun v => ⟨_, request_addInput v s, request_isAwaitingInput _⟩⟩

end Sys2Proof.Machine
end

section
/-! PROOFS. An instruction whose cells stand at the pc is the one fetched (30_encoding.md R51, 40_execution_cycle.md R70). -/

namespace Sys2Proof

variable {i : Instr} {o : Nat → Int}

/-- The decoder takes the word of an instruction apart into the fields it was made of. -/
theorem decode_word (i : Instr) (o : Nat → Int) : decode i.word o = assemble i.op i.mode1 i.mode2 i.mode3 o := by
  obtain ⟨hnonneg, hsize, hcode, h1, h2, h3⟩ := Laws.EncodedFields.fields i
  simp [decode, hcode, h1, h2, h3, not_lt.mpr hnonneg, not_le.mpr hsize]

/-- An instruction's fields and operand words put it together again. -/
theorem assemble_fields (h : ∀ k, k < i.operandWords.length → o (k + 1) = i.operandWords.getD k 0) :
    assemble i.op i.mode1 i.mode2 i.mode3 o = .ok i := by
  cases i with
  | add a b d | mul a b d | lt a b d | eq a b d =>
    have h1 : o 1 = a.word := h 0 (by simp [Instr.operandWords])
    have h2 : o 2 = b.word := h 1 (by simp [Instr.operandWords])
    have h3 : o 3 = d.word := h 2 (by simp [Instr.operandWords])
    simp [assemble, Instr.op, Instr.mode1, Instr.mode2, Instr.mode3, h1, h2, h3, Except.map]
  | inp d u2 u3 =>
    have h1 : o 1 = d.word := h 0 (by simp [Instr.operandWords])
    simp [assemble, Instr.op, Instr.mode1, Instr.mode2, Instr.mode3, h1, Except.map]
  | out a u2 u3 | arb a u2 u3 =>
    have h1 : o 1 = a.word := h 0 (by simp [Instr.operandWords])
    simp [assemble, Instr.op, Instr.mode1, Instr.mode2, Instr.mode3, h1]
  | jt a b u3 | jf a b u3 =>
    have h1 : o 1 = a.word := h 0 (by simp [Instr.operandWords])
    have h2 : o 2 = b.word := h 1 (by simp [Instr.operandWords])
    simp [assemble, Instr.op, Instr.mode1, Instr.mode2, Instr.mode3, h1, h2]
  | hlt u1 u2 u3 => rfl

namespace Machine

variable {s : State}

theorem fetch_of_holdsAtPc (h : HoldsAtPc s i) : fetch s = .ok i := by
  have hword : s.mem.read s.pc = i.word := h 0 (Nat.succ_pos _)
  have hoperands : ∀ k, k < i.operandWords.length → s.mem.read (s.pc + (k + 1)) = i.operandWords.getD k 0 :=
    fun k hk => h (k + 1) (Nat.succ_lt_succ hk)
  rw [fetch, hword, decode_word, assemble_fields hoperands]

theorem step_of_holdsAtPc (hs : s.stopped = false) (h : HoldsAtPc s i) : step s = exec i s.resume :=
  step_of_fetch_ok hs (fetch_of_holdsAtPc h)

end Machine

end Sys2Proof
end

section
/-! PROOFS. What pauses a step and what ends the pause (60_exceptions.md R176, R177), and the settlement of O25 and O26. -/

namespace Sys2Proof.Machine

variable {s t : State}

theorem storeBinary_runState {compute : Int → Int → Except Trap Int} {a b : Operand} {dest : Target}
    (h : storeBinary compute a b dest s = .next t) : t.runState = s.runState ∨ t.runState = .faulted := by
  obtain ⟨_, _, _, _, _, _, _, _, rfl⟩ | ⟨_, rfl, _⟩ := storeBinary_cases h
  · exact .inl rfl
  · exact .inr rfl

theorem execOut_runState {a : Operand} (u2 u3 : Mode) (h : execOut a u2 u3 s = .next t) :
    t.runState = s.runState ∨ t.runState = .faulted := by
  obtain ⟨_, _, rfl⟩ | ⟨_, _, rfl⟩ := execOut_cases u2 u3 h
  · exact .inl rfl
  · exact .inr rfl

theorem jumpWhen_runState {condition : Int → Bool} {a target : Operand}
    (h : jumpWhen condition a target s = .next t) : t.runState = s.runState ∨ t.runState = .faulted := by
  obtain ⟨_, _, _, _, _, _, rfl⟩ | ⟨_, _, _, _, _, rfl⟩ | ⟨_, _, _, rfl⟩ := jumpWhen_cases h
  · exact .inl rfl
  · exact .inl rfl
  · exact .inr rfl

theorem execArbAt_runState {width : Option Nat} {a : Operand} (h : execArbAt width a s = .next t) :
    t.runState = s.runState ∨ t.runState = .faulted := by
  obtain ⟨_, _, _, rfl⟩ | ⟨_, _, _, rfl⟩ | ⟨_, _, rfl⟩ := execArbAt_cases h
  · exact .inl rfl
  · exact .inr rfl
  · exact .inr rfl

/-- An IN leaves a running core `Paused` only by finding no input; completing, it leaves the run state alone. -/
theorem execIn_pauses_only_starved {dest : Target} (u2 u3 : Mode) (hr : s.runState = .running)
    (h : execIn dest u2 u3 s = .next t) (ht : t.runState = .paused) : ∃ p, wrAddr s dest = .ok p ∧ s.inq = [] := by
  obtain ⟨_, _, _, _, _, rfl⟩ | ⟨p, hd, hq, _⟩ | ⟨_, _, rfl⟩ := execIn_cases u2 u3 h
  · cases hr.symm.trans ht
  · exact ⟨p, hd, hq⟩
  · cases ht

/-- A run state that is kept from a running core, or that of a fault, is no pause. -/
theorem not_paused_of_kept_or_faulted (hr : s.runState = .running)
    (h : t.runState = s.runState ∨ t.runState = .faulted) : t.runState ≠ .paused := by
  rcases h with h | h
  · simp [h, hr]
  · simp [h]

/-- An execute stage that pauses a running core is that of a starved IN. -/
theorem exec_pauses_only_starved {i : Instr} (hr : s.runState = .running) (h : exec i s = .next t)
    (ht : t.runState = .paused) : ∃ d u2 u3 p, i = .inp d u2 u3 ∧ wrAddr s d = .ok p ∧ s.inq = [] := by
  cases i with
  | inp d u2 u3 =>
    obtain ⟨p, hd, hq⟩ := execIn_pauses_only_starved u2 u3 hr h ht
    exact ⟨d, u2, u3, p, rfl, hd, hq⟩
  | add a b dest | mul a b dest | lt a b dest | eq a b dest =>
    exact absurd ht (not_paused_of_kept_or_faulted hr (storeBinary_runState h))
  | out a u2 u3 => exact absurd ht (not_paused_of_kept_or_faulted hr (execOut_runState u2 u3 h))
  | jt a target u3 | jf a target u3 => exact absurd ht (not_paused_of_kept_or_faulted hr (jumpWhen_runState h))
  | arb a u2 u3 => exact absurd ht (not_paused_of_kept_or_faulted hr (execArbAt_runState h))
  | hlt u1 u2 u3 =>
    cases h
    cases ht

theorem starvedAtPc_of_step_paused (hs : s.stopped = false) (h : step s = .next t) (ht : t.runState = .paused) :
    StarvedAtPc s := by
  obtain ⟨hstop, _⟩ | ⟨i, _, hf, he⟩ | ⟨_, _, _, rfl⟩ := step_cases h
  · cases hs.symm.trans hstop
  · obtain ⟨d, u2, u3, p, rfl, hd, hq⟩ := exec_pauses_only_starved rfl he ht
    exact ⟨d, u2, u3, p, hf, (wrAddr_resume s d).symm.trans hd, hq⟩
  · cases ht

theorem step_of_starvedAtPc (hs : s.stopped = false) (h : StarvedAtPc s) : step s = .next s.pause := by
  obtain ⟨_, _, _, _, hf, hd, hq⟩ := h
  exact step_of_starved_inp hs hf hd hq

/-- A step that pauses changes the run state alone (R176). -/
theorem eq_pause_of_step_paused (hs : s.stopped = false) (h : step s = .next t) (ht : t.runState = .paused) :
    t = s.pause := by
  cases h.symm.trans (step_of_starvedAtPc hs (starvedAtPc_of_step_paused hs h ht))
  rfl

/-- Settles O25: a starved IN pauses, nothing else does, and RUN returns after a step that leaves `Running`. -/
theorem onlyAStarvedInPauses : Obligations.OnlyAStarvedInPauses := by
  refine fun s t hs h => ⟨⟨starvedAtPc_of_step_paused hs h, fun hstarved => ?_⟩,
    fun ht => ⟨eq_pause_of_step_paused hs h ht, runReturns_of_step hs h (by simp [ht])⟩⟩
  cases h.symm.trans (step_of_starvedAtPc hs hstarved)
  rfl

theorem runReturns_resume (hs : s.stopped = false) : RunReturns s.resume t ↔ RunReturns s t := by
  simp only [runReturns_iff_stopsAfter hs, runReturns_iff_stopsAfter (s := s.resume) rfl, stopsAfter_resume hs]

/-- A transaction that is neither STEP nor RESET can change memory and the queues, and nothing else. -/
theorem request_changes_memory_and_queues {q : Request} {r : Reply} (h : request q s = .next (t, r))
    (hstep : q ≠ .step) (hreset : ∀ p, q ≠ .reset p) :
    ∃ m inputs outputs, t = { s with mem := m, inq := inputs, outq := outputs } := by
  obtain rfl : (port s q).1 = t := congrArg Prod.fst (port_of_request h hstep)
  cases q with
  | reset p => exact absurd rfl (hreset p)
  | _ => exact ⟨_, _, _, rfl⟩

/-- Two cores that are not stopped and differ at most in being paused step alike: nothing was saved at the pause (R177). -/
theorem step_congr_resume (hs : s.stopped = false) (ht : t.stopped = false) (h : s.resume = t.resume) :
    step s = step t := by
  rw [← step_resume hs, ← step_resume ht, h]

@[simp] theorem wrAddr_pause (s : State) (d : Target) : wrAddr s.pause d = wrAddr s d := by
  cases d <;> rfl

@[simp] theorem wrAddr_setInq (s : State) (q : List Int) (d : Target) : wrAddr (s.setInq q) d = wrAddr s d := by
  cases d <;> rfl

/-- A starved IN that has been fed one input completes and consumes it (R100). -/
theorem step_of_starvedAtPc_fed (hs : s.stopped = false) (h : StarvedAtPc s) (v : Int) :
    ∃ u, step { s with inq := s.inq ++ [v] } = .next u ∧
      u.runState = .running ∧ u.inq = [] ∧ u.pc = s.pc + 2 := by
  obtain ⟨d, u2, u3, p, hf, hd, hq⟩ := h
  have hfed : (s.setInq (s.inq ++ [v])).resume.inq = v :: [] := by simp [hq]
  have hdest : wrAddr (s.setInq (s.inq ++ [v])).resume d = .ok p := by simpa using hd
  exact ⟨_, (step_of_fetch_ok (s := s.setInq (s.inq ++ [v])) hs hf).trans (execIn_completes u2 u3 hdest hfed),
    rfl, rfl, rfl⟩

theorem starvedAtPc_pause (h : StarvedAtPc s) : StarvedAtPc s.pause := by
  obtain ⟨d, u2, u3, p, hf, hd, hq⟩ := h
  exact ⟨d, u2, u3, p, hf, (wrAddr_pause s d).trans hd, hq⟩

/-- Settles O26: the step re-decodes at the pc, the ports reach neither the pc nor the run state, and the paused state is
the one before it but for the run state, which resuming overwrites. -/
theorem pausedCoreResumesAtTheSameInstruction : Obligations.PausedCoreResumesAtTheSameInstruction := by
  refine ⟨fun s i hp h => step_of_holdsAtPc (not_stopped_iff.mpr (.inr hp)) h,
    fun s t hp => (runReturns_resume (not_stopped_iff.mpr (.inr hp))).symm, fun s t q r hp h hstep hreset => ?_,
    fun s t hs h ht => ?_⟩
  · obtain ⟨_, _, _, rfl⟩ := request_changes_memory_and_queues h hstep hreset
    exact ⟨hp, rfl⟩
  · have hstarved := starvedAtPc_of_step_paused hs h ht
    obtain rfl := eq_pause_of_step_paused hs h ht
    refine ⟨step_of_starvedAtPc rfl (starvedAtPc_pause hstarved), fun v => ⟨?_, ?_⟩⟩
    · exact step_congr_resume rfl hs rfl
    · exact step_of_starvedAtPc_fed rfl (starvedAtPc_pause hstarved) v

end Sys2Proof.Machine
end

section
/-! PROOFS. `Halted` and `Faulted` are final (10_state.md R15, 60_exceptions.md R175), and the settlement of O27. -/

namespace Sys2Proof.Machine

variable {s t : State}

theorem request_step (s : State) : request .step s = withNoReply (step s) := rfl

/-- At this hardware's width every program may be loaded, and RESET leaves nothing of the state before it (R200). -/
theorem request_reset (p : List Int) (s : State) : request (.reset p) s = .next (State.load p, .none) :=
  request_of_inDomain s (List.all_eq_true.mpr fun _ _ => rfl) nofun

/-- A transaction whose arguments are in their domain is answered, in every state (R142). -/
theorem request_answers_of_inDomain {q : Request} (s : State) (hd : q.inDomain Config.valueBits = true) :
    ∃ t r, request q s = .next (t, r) := by
  by_cases hq : q = .step
  · subst hq
    obtain ⟨t, ht⟩ := step_answers_next s
    exact ⟨t, .none, by rw [request_step, ht]; rfl⟩
  · exact ⟨_, _, request_of_inDomain s hd hq⟩

/-- On a stopped core every transaction but RESET, STEP included, can change memory and the queues, and nothing else. -/
theorem request_of_stopped_changes_memory_and_queues {q : Request} {r : Reply} (hs : s.stopped = true)
    (h : request q s = .next (t, r)) (hreset : ∀ p, q ≠ .reset p) :
    ∃ m inputs outputs, t = { s with mem := m, inq := inputs, outq := outputs } := by
  by_cases hq : q = .step
  · subst hq
    rw [request_step, step_of_stopped hs] at h
    cases h
    exact ⟨_, _, _, rfl⟩
  · exact request_changes_memory_and_queues h hq hreset

/-- Settles O27: no command executes in a stopped core, and what the ports change is no part of the run state, the fault
registers, the pc or `rb`. -/
theorem stoppedCoreStaysStopped : Obligations.StoppedCoreStaysStopped := by
  intro s hfinal
  have hs : s.stopped = true := stopped_iff.mpr hfinal.symm
  refine ⟨step_of_stopped hs, fun t => runReturns_of_stopped hs, fun q t r h hreset => ?_,
    fun q hd => request_answers_of_inDomain s hd, fun p => ⟨_, request_reset p s, rfl⟩⟩
  obtain ⟨_, _, _, rfl⟩ := request_of_stopped_changes_memory_and_queues hs h hreset
  exact ⟨rfl, rfl, rfl, rfl, rfl⟩

end Sys2Proof.Machine
end

section
/-! PROOFS. The decoder against the encoder in both directions (30_encoding.md R50, R51), the table of legal words (R57),
and the settlement of O1, O2, O3, O5 and O6. -/

namespace Sys2Proof

variable {w : Int} {o : Nat → Int} {i : Instr} {op : Op} {m1 m2 m3 : Mode}

theorem decodeCells_encode (i : Instr) (rest : List Int) : decodeCells (encode i ++ rest) = .ok i := by
  have hoperands : ∀ k, k < i.operandWords.length →
      (encode i ++ rest).getD (k + 1) 0 = i.operandWords.getD k 0 := by
    intro k hk
    rw [encode, List.cons_append, List.getD_cons_succ, List.getD_append _ _ _ _ hk]
  have hword : (encode i ++ rest).getD 0 0 = i.word := rfl
  rw [decodeCells, hword, decode_word, assemble_fields hoperands]

/-- Settles O1: the word of an instruction holds its fields, and the operand words are read as they stand. -/
theorem decodeOfEncodeIsTheInstruction : Obligations.DecodeOfEncodeIsTheInstruction := decodeCells_encode

/-- Settles O3: each list of cells is the encoding of the instruction it decodes to. -/
theorem decoderReadsWrittenOutWords : Obligations.DecoderReadsWrittenOutWords :=
  ⟨decodeCells_encode (.mul (.position 4) (.immediate 3) (.position 4)) [],
    decodeCells_encode (.lt (.immediate 5) (.immediate (-7)) (.relative 3)) [],
    decodeCells_encode (.inp (.relative (-3)) .position .position) [],
    decodeCells_encode (.out (.immediate 1125899906842624) .position .position) [],
    decodeCells_encode (.jf (.relative 0) (.immediate 14) .position) [],
    decodeCells_encode (.arb (.position 5) .position .position) [],
    decodeCells_encode (.hlt .position .position .position) []⟩

theorem Target.map_ofMode_eq_ok {n : Int} {m : Mode} {f : Target → Instr} (h : (Target.ofMode m n).map f = .ok i) :
    ∃ d, d.mode = m ∧ d.word = n ∧ f d = i := by
  cases hd : Target.ofMode m n with
  | error e =>
    rw [hd] at h
    cases h
  | ok d =>
    obtain ⟨hmode, hword⟩ := Target.ofMode_eq_ok hd
    rw [hd] at h
    cases h
    exact ⟨d, hmode, hword, rfl⟩

/-- Putting an instruction together keeps every field and reads as many operand words as the operation has (R50). -/
theorem assemble_ok (h : assemble op m1 m2 m3 o = .ok i) :
    i.op = op ∧ i.mode1 = m1 ∧ i.mode2 = m2 ∧ i.mode3 = m3 ∧
      i.operandWords = (List.range (op.length - 1)).map fun k => o (k + 1) := by
  cases op with
  | add | mul | lt | eq =>
    obtain ⟨d, hmode, hword, rfl⟩ := Target.map_ofMode_eq_ok h
    simp [Instr.op, Instr.mode1, Instr.mode2, Instr.mode3, Instr.operandWords, Op.length, hmode, hword, List.range_succ]
  | inp =>
    obtain ⟨d, hmode, hword, rfl⟩ := Target.map_ofMode_eq_ok h
    simp [Instr.op, Instr.mode1, Instr.mode2, Instr.mode3, Instr.operandWords, Op.length, hmode, hword]
  | out | jt | jf | arb | hlt =>
    cases h
    simp [Instr.op, Instr.mode1, Instr.mode2, Instr.mode3, Instr.operandWords, Op.length, List.range_succ]

theorem illegalClass_eq_none (h : illegalClass w = none) :
    ¬ w < 0 ∧ w % 100 ∈ legalOpcodes ∧ ¬ BadDigits w := by
  unfold illegalClass at h
  split_ifs at h with h0 hop hb hdest
  exact ⟨h0, hop, hb⟩

theorem illegalClass_of_decode (h : decode w o = .ok i) : illegalClass w = none := by
  cases hc : illegalClass w with
  | none => rfl
  | some e => cases h.symm.trans (decode_error_iff.mpr hc)

theorem exists_decode_iff : (∃ i, decode w o = .ok i) ↔ illegalClass w = none := by
  refine ⟨fun ⟨_, h⟩ => illegalClass_of_decode h, fun h => ?_⟩
  cases hd : decode w o with
  | ok i => exact ⟨i, rfl⟩
  | error e => cases h.symm.trans (decode_error_iff.mp hd)

/-- The fields of a legal word are those of one operation and three modes (R51). -/
theorem decode_of_legal (h : illegalClass w = none) (o : Nat → Int) :
    ∃ op m1 m2 m3, (0 ≤ w ∧ w < 100000 ∧ w % 100 = Op.code op) ∧
      (digit 2 w = Mode.digit m1 ∧ digit 3 w = Mode.digit m2 ∧ digit 4 w = Mode.digit m3) ∧
      decode w o = assemble op m1 m2 m3 o := by
  obtain ⟨h0, hmem, hb⟩ := illegalClass_eq_none h
  obtain ⟨op, hop⟩ := Option.ne_none_iff_exists'.mp (mt Op.ofCode_eq_none_iff.mp (not_not.mpr hmem))
  obtain ⟨m1, m2, m3, h1, h2, h3, hdec⟩ := decode_of_goodDigits (o := o) h0 hop hb
  have hsize : w < 100000 := not_le.mp fun hw => hb (.inr (.inr (.inr hw)))
  exact ⟨op, m1, m2, m3, ⟨not_lt.mp h0, hsize, Op.ofCode_eq_some hop⟩, ⟨h1, h2, h3⟩, hdec⟩

/-- A word below 100000 is the sum of its fields (R51). -/
theorem word_eq_fields (h0 : 0 ≤ w) (hsize : w < 100000) :
    w = 10000 * digit 4 w + 1000 * digit 3 w + 100 * digit 2 w + w % 100 := by
  simp only [digit]
  norm_num
  omega

theorem decode_ok (h : decode w o = .ok i) :
    w = i.word ∧ i.operandWords = (List.range (i.op.length - 1)).map fun k => o (k + 1) := by
  obtain ⟨op, m1, m2, m3, ⟨h0, hsize, hcode⟩, ⟨h1, h2, h3⟩, hdec⟩ := decode_of_legal (illegalClass_of_decode h) o
  obtain ⟨rfl, rfl, rfl, rfl, hwords⟩ := assemble_ok (hdec.symm.trans h)
  have hfields := word_eq_fields h0 hsize
  rw [h1, h2, h3, hcode] at hfields
  exact ⟨hfields, hwords⟩

/-- Settles O2: a legal word is the sum of its fields, which the instruction keeps. -/
theorem encodeOfDecodeIsTheCells : Obligations.EncodeOfDecodeIsTheCells := by
  intro w o i h
  obtain ⟨rfl, hwords⟩ := decode_ok h
  exact ⟨congrArg _ hwords, by cases i <;> rfl⟩

theorem mem_wordsOf {c : Int} {m1s m2s m3s : List Int} :
    w ∈ wordsOf c m1s m2s m3s ↔
      ∃ d3 ∈ m3s, ∃ d2 ∈ m2s, ∃ d1 ∈ m1s, 10000 * d3 + 1000 * d2 + 100 * d1 + c = w := by
  simp [wordsOf]

theorem Mode.digit_mem (m : Mode) : m.digit ∈ [(0 : Int), 1, 2] := by cases m <;> decide

theorem Target.digit_mem (d : Target) : d.mode.digit ∈ [(0 : Int), 2] := by
  cases d <;> simp [Target.mode, Mode.digit]

/-- Every position takes the three mode digits, but that of a write parameter the two of its forms (R54). -/
theorem word_mem_legalWordsOf (i : Instr) : i.word ∈ legalWordsOf i.op := by
  cases i with
  | add a b d | mul a b d | lt a b d | eq a b d =>
    exact mem_wordsOf.mpr ⟨_, d.digit_mem, _, b.mode.digit_mem, _, a.mode.digit_mem, rfl⟩
  | inp d u2 u3 => exact mem_wordsOf.mpr ⟨_, u3.digit_mem, _, u2.digit_mem, _, d.digit_mem, rfl⟩
  | out a u2 u3 | arb a u2 u3 => exact mem_wordsOf.mpr ⟨_, u3.digit_mem, _, u2.digit_mem, _, a.mode.digit_mem, rfl⟩
  | jt a t u3 | jf a t u3 => exact mem_wordsOf.mpr ⟨_, u3.digit_mem, _, t.mode.digit_mem, _, a.mode.digit_mem, rfl⟩
  | hlt u1 u2 u3 => exact mem_wordsOf.mpr ⟨_, u3.digit_mem, _, u2.digit_mem, _, u1.digit_mem, rfl⟩

theorem Op.mem_all (op : Op) : op ∈ Op.all := by cases op <;> decide

theorem legal_of_mem_legalWordsOf : ∀ op, ∀ w ∈ legalWordsOf op, illegalClass w = none := by
  intro op
  cases op <;> decide

theorem legal_iff_mem_table : illegalClass w = none ↔ w ∈ Op.all.flatMap legalWordsOf := by
  rw [List.mem_flatMap]
  constructor
  · intro h
    obtain ⟨i, hi⟩ := exists_decode_iff (o := fun _ => 0).mpr h
    exact ⟨i.op, i.op.mem_all, (decode_ok hi).1 ▸ word_mem_legalWordsOf i⟩
  · rintro ⟨op, -, h⟩
    exact legal_of_mem_legalWordsOf op w h

theorem opcode_of_mem_legalWordsOf : ∀ op, ∀ w ∈ legalWordsOf op, w % 100 = op.code := by
  intro op
  cases op <;> decide

theorem legalWordsOf_nodup (op : Op) : (legalWordsOf op).Nodup := by
  cases op <;> decide

/-- The words of different operations differ in their opcode fields. -/
theorem legalWords_nodup : (Op.all.flatMap legalWordsOf).Nodup := by
  have codes_differ : Op.all.Pairwise fun op op' => op.code ≠ op'.code := by decide
  refine List.nodup_flatMap.mpr ⟨fun op _ => legalWordsOf_nodup op, codes_differ.imp fun hne => ?_⟩
  intro w h h'
  exact hne ((opcode_of_mem_legalWordsOf _ w h).symm.trans (opcode_of_mem_legalWordsOf _ w h'))

/-- The word is that of its canonical instruction: the digits it does not use are 0 (R57). -/
def isCanonicalWord (w : Int) : Bool :=
  decide (((decode w fun _ => 0).toOption.map fun i => i.canonical.word) = some w)

/-- A canonical word is left only the digits of the operation's parameters. -/
theorem canonical_counts :
    (Op.all.map fun op => ((legalWordsOf op).filter isCanonicalWord).length) =
      [18, 18, 2, 3, 9, 9, 18, 18, 3, 1] := by decide

theorem canonical_count : ((Op.all.flatMap legalWordsOf).filter isCanonicalWord).length = 99 := by
  rw [List.filter_flatMap, List.length_flatMap, canonical_counts]
  rfl

/-- Settles O5: the decoder accepts the words without an illegal class, which are those the instructions have. -/
theorem legalWordsAreTheTable : Obligations.LegalWordsAreTheTable :=
  ⟨fun _ _ => exists_decode_iff.trans legal_iff_mem_table, by decide, legalWords_nodup, canonical_count⟩

namespace Machine

/-- No execute stage looks at a mode digit its operation does not use (R53). -/
theorem exec_canonical (i : Instr) (s : State) : exec i.canonical s = exec i s := by
  cases i with
  | _ => rfl

/-- Settles O6: two instructions with one canonical form execute as it does. -/
theorem unusedModeDigitsHaveNoEffect : Obligations.UnusedModeDigitsHaveNoEffect := by
  intro w v o i j _ _ h s
  rw [← exec_canonical i, h, exec_canonical]

end Machine

end Sys2Proof
end

section
/-! PROOFS. The invariant of 10_state.md R24: what keeps it, one lemma per update of the state and then per execute stage,
and the settlement of O11, O31, O32, O33 and O34. -/

namespace Sys2Proof.Machine

variable {s t : State} {width : Option Nat} {v : Int}

/-- In a legal width every power bound is at least 2, so 0 and 1 fit (R5). -/
theorem fits_of_legalWidth (hw : Config.legalWidth width = true) (h0 : 0 ≤ v) (h1 : v ≤ 1) : fits width v = true := by
  cases width with
  | none => rfl
  | some n =>
    have hn : 64 ≤ n := of_decide_eq_true hw
    have hpow : (2 : Int) ^ 1 ≤ 2 ^ (n - 1) := pow_le_pow_right₀ (by decide) (by omega)
    simp only [fits, Bool.and_eq_true, decide_eq_true_eq]
    omega

theorem Memory.read_eq_zero_or_mem (m : Memory) (a : Nat) : m.read a = 0 ∨ (a, m.read a) ∈ m := by
  induction m with
  | nil => exact .inl rfl
  | cons c m ih =>
    obtain ⟨k, x⟩ := c
    rw [Memory.read_cons]
    split_ifs with h
    · exact .inr (by simp [h])
    · exact ih.imp_right (List.mem_cons_of_mem _)

namespace State.InvAt

/-- A cell that is not listed reads 0, which fits. -/
theorem read_fits (h : s.InvAt width) (hw : Config.legalWidth width = true) (a : Nat) :
    fits width (s.mem.read a) = true := by
  obtain h0 | hmem := Memory.read_eq_zero_or_mem s.mem a
  · rw [h0]
    exact fits_of_legalWidth hw le_rfl zero_le_one
  · exact h.cellsFit _ hmem

theorem store (h : s.InvAt width) (hv : fits width v = true) (a : Nat) : (s.store a v).InvAt width :=
  { h with
    canonical := Memory.wf_write h.canonical
    cellsFit := fun c hc => (Memory.mem_write hc).elim (h.cellsFit c) fun hcell => hcell ▸ hv }

theorem goto (h : s.InvAt width) (a : Nat) : (s.goto a).InvAt width := { h with }

theorem advance (h : s.InvAt width) (n : Nat) : (s.advance n).InvAt width := h.goto _

theorem setRb (h : s.InvAt width) (hv : fits width v = true) : (s.setRb v).InvAt width := { h with rbFits := hv }

theorem setInq (h : s.InvAt width) {q : List Int} (hq : ∀ v ∈ q, fits width v = true) :
    (s.setInq q).InvAt width := { h with inqFits := hq }

theorem setOutq (h : s.InvAt width) {q : List Int} (hq : ∀ v ∈ q, fits width v = true) :
    (s.setOutq q).InvAt width := { h with outqFits := hq }

/-- Between run states other than `Faulted` the cause stays clear (R24 (c)). -/
theorem setRunState (h : s.InvAt width) {r : RunState} (hs : s.runState ≠ .faulted) (hr : r ≠ .faulted) :
    (s.setRunState r).InvAt width :=
  { h with causeSet := iff_of_false (mt h.causeSet.mp hs) hr }

theorem enterFault (h : s.InvAt width) {e : Trap} (he : e.cause ≠ .noFault) : (s.enterFault e).InvAt width :=
  { h with
    causeSet := iff_of_true he rfl
    infoClear := fun hc => absurd hc he }

theorem resume (h : s.InvAt width) (hs : s.stopped = false) : s.resume.InvAt width :=
  h.setRunState (fun hf => by cases hs.symm.trans (stopped_iff.mpr (.inr hf))) nofun

end State.InvAt

theorem storeBinary_keeps_inv {compute : Int → Int → Except Trap Int} {a b : Operand} {dest : Target}
    (hfit : ∀ x y v, compute x y = .ok v → fits width v = true)
    (hcause : ∀ x y e, compute x y = .error e → e.cause ≠ .noFault)
    (hinv : s.InvAt width) (h : storeBinary compute a b dest s = .next t) : t.InvAt width := by
  obtain ⟨x, y, p, v, _, _, _, hv, rfl⟩ | ⟨e, rfl, ⟨hneg, _⟩ | ⟨x, y, he⟩⟩ := storeBinary_cases h
  · exact (hinv.store (hfit x y v hv) p).advance 4
  · exact hinv.enterFault (by simp [hneg])
  · exact hinv.enterFault (hcause x y e he)

/-- The range check lets through only what fits (R84). -/
theorem storeBinary_checked_keeps_inv {f : Int → Int → Int} {a b : Operand} {dest : Target} (hinv : s.InvAt width)
    (h : storeBinary (fun x y => checkFits width (f x y)) a b dest s = .next t) : t.InvAt width := by
  refine storeBinary_keeps_inv (fun x y v hv => ?_) (fun x y e he => ?_) hinv h
  · obtain ⟨hfit, rfl⟩ := checkFits_ok_iff.mp hv
    exact hfit
  · obtain ⟨_, rfl⟩ := checkFits_error_iff.mp he
    nofun

theorem lessThan_range (x y : Int) : 0 ≤ lessThan x y ∧ lessThan x y ≤ 1 := by
  unfold lessThan
  split <;> decide

theorem equalTo_range (x y : Int) : 0 ≤ equalTo x y ∧ equalTo x y ≤ 1 := by
  unfold equalTo
  split <;> decide

/-- A comparison needs no range check, as 0 and 1 fit in every legal width. -/
theorem storeBinary_bit_keeps_inv {f : Int → Int → Int} {a b : Operand} {dest : Target}
    (hw : Config.legalWidth width = true) (hf : ∀ x y, 0 ≤ f x y ∧ f x y ≤ 1) (hinv : s.InvAt width)
    (h : storeBinary (fun x y => .ok (f x y)) a b dest s = .next t) : t.InvAt width := by
  refine storeBinary_keeps_inv (fun x y v hv => ?_) (fun _ _ _ he => by cases he) hinv h
  cases hv
  exact fits_of_legalWidth hw (hf x y).1 (hf x y).2

theorem execIn_keeps_inv {dest : Target} (u2 u3 : Mode) (hr : s.runState = .running) (hinv : s.InvAt width)
    (h : execIn dest u2 u3 s = .next t) : t.InvAt width := by
  obtain ⟨p, v, rest, _, hq, rfl⟩ | ⟨p, _, _, rfl⟩ | ⟨e, he, rfl⟩ := execIn_cases u2 u3 h
  · obtain ⟨hv, hrest⟩ := List.forall_mem_cons.mp (hq ▸ hinv.inqFits)
    exact ((hinv.setInq hrest).store hv p).advance 2
  · exact hinv.setRunState (by simp [hr]) nofun
  · exact hinv.enterFault (by simp [(wrAddr_error he).1])

/-- The value of a read parameter is a cell's, or an operand word, which is a whole cell too (R55). -/
theorem rdVal_fits {a : Operand} {x : Int} (hw : Config.legalWidth width = true) (hinv : s.InvAt width)
    (ha : fits width a.word = true) (h : rdVal s a = .ok x) : fits width x = true := by
  obtain rfl | ⟨p, rfl⟩ := rdVal_ok h
  · exact ha
  · exact hinv.read_fits hw p

theorem execOut_keeps_inv {a : Operand} (u2 u3 : Mode) (hw : Config.legalWidth width = true)
    (ha : fits width a.word = true) (hinv : s.InvAt width) (h : execOut a u2 u3 s = .next t) : t.InvAt width := by
  obtain ⟨x, hx, rfl⟩ | ⟨e, he, rfl⟩ := execOut_cases u2 u3 h
  · refine (hinv.setOutq fun v hv => ?_).advance 2
    obtain hv | hv := List.mem_append.mp hv
    · exact hinv.outqFits v hv
    · obtain rfl := List.mem_singleton.mp hv
      exact rdVal_fits hw hinv ha hx
  · exact hinv.enterFault (by simp [(rdVal_error he).1])

theorem jumpWhen_keeps_inv {condition : Int → Bool} {a target : Operand} (hinv : s.InvAt width)
    (h : jumpWhen condition a target s = .next t) : t.InvAt width := by
  obtain ⟨_, y, _, _, _, _, rfl⟩ | ⟨_, _, _, _, _, rfl⟩ | ⟨e, he, _, rfl⟩ := jumpWhen_cases h
  · exact hinv.goto _
  · exact hinv.advance 3
  · exact hinv.enterFault (by simp [he])

theorem execArbAt_keeps_inv {a : Operand} (hinv : s.InvAt width) (h : execArbAt width a s = .next t) :
    t.InvAt width := by
  obtain ⟨x, _, hfit, rfl⟩ | ⟨x, _, _, rfl⟩ | ⟨e, he, rfl⟩ := execArbAt_cases h
  · exact (hinv.setRb hfit).advance 2
  · exact hinv.enterFault nofun
  · exact hinv.enterFault (by simp [(rdVal_error he).1])

/-- Every execute stage of a running core keeps the invariant; of the operand words only that of OUT can reach the state
unchecked. -/
theorem execAt_keeps_inv {i : Instr} (hw : Config.legalWidth width = true) (hi : i.wellFormedAt width = true)
    (hr : s.runState = .running) (hinv : s.InvAt width) (h : execAt width i s = .next t) : t.InvAt width := by
  cases i with
  | add a b dest => exact storeBinary_checked_keeps_inv hinv h
  | mul a b dest => exact storeBinary_checked_keeps_inv hinv h
  | inp dest u2 u3 => exact execIn_keeps_inv u2 u3 hr hinv h
  | out a u2 u3 => exact execOut_keeps_inv u2 u3 hw (List.all_eq_true.mp hi _ (.head _)) hinv h
  | jt a target u3 => exact jumpWhen_keeps_inv hinv h
  | jf a target u3 => exact jumpWhen_keeps_inv hinv h
  | lt a b dest => exact storeBinary_bit_keeps_inv hw lessThan_range hinv h
  | eq a b dest => exact storeBinary_bit_keeps_inv hw equalTo_range hinv h
  | arb a u2 u3 => exact execArbAt_keeps_inv hinv h
  | hlt u1 u2 u3 =>
    cases h
    exact (hinv.setRunState (r := .halted) (by simp [hr]) nofun).advance 1

theorem decode_of_fetch {i : Instr} (h : fetch s = .ok i) :
    decode (s.mem.read s.pc) (fun k => s.mem.read (s.pc + k)) = .ok i := by
  unfold fetch at h
  split at h
  next hd => cases h; exact hd
  next => cases h

/-- The operand words of a fetched instruction are cells of memory (R50). -/
theorem wellFormedAt_of_fetch {i : Instr} (hw : Config.legalWidth width = true) (hinv : s.InvAt width)
    (h : fetch s = .ok i) : i.wellFormedAt width = true := by
  obtain ⟨_, hwords⟩ := decode_ok (decode_of_fetch h)
  rw [Instr.wellFormedAt, hwords, List.all_map, List.all_eq_true]
  exact fun k _ => hinv.read_fits hw _

/-- Settles O11: an operand word is read from memory, where everything fits. -/
theorem fetchedInstructionsAreWellFormed : Obligations.FetchedInstructionsAreWellFormed :=
  fun _ _ _ => wellFormedAt_of_fetch

theorem stepAt_keeps_inv (hw : Config.legalWidth width = true) (hinv : s.InvAt width)
    (h : stepAt width s = .next t) : t.InvAt width := by
  obtain ⟨_, rfl⟩ | ⟨i, hs, hf, he⟩ | ⟨e, hs, hf, rfl⟩ := stepAt_cases h
  · exact hinv
  · exact execAt_keeps_inv hw (wellFormedAt_of_fetch hw hinv hf) rfl (hinv.resume hs) he
  · refine (hinv.resume hs).enterFault fun hc => ?_
    obtain ⟨_, hcause⟩ := fetch_error hf
    simp [hc] at hcause

theorem stepAt_none (s : State) : stepAt none s = step s := by
  unfold stepAt step stepWith
  rw [coreStepWith_congr execAt_none]

theorem step_keeps_inv (hinv : s.Inv) (h : step s = .next t) : t.Inv :=
  stepAt_keeps_inv (width := none) rfl hinv ((stepAt_none s).trans h)

/-- Settles O34: every update an execute stage makes keeps the invariant, since what it writes was in the state, was
checked, or is 0 or 1. -/
theorem stepAtEveryWidthKeepsTheInvariant : Obligations.StepAtEveryWidthKeepsTheInvariant :=
  fun _ _ _ => stepAt_keeps_inv

/-- Settles O33: the step is that of width `inf`. -/
theorem stepKeepsTheInvariant : Obligations.StepKeepsTheInvariant := fun _ _ => step_keeps_inv

theorem load_inv {p : List Int} (hw : Config.legalWidth width = true) (hp : p.all (fits width) = true) :
    (State.load p).InvAt width where
  canonical := Memory.wf_image
  cellsFit := fun _ hc => List.all_eq_true.mp hp _ (Memory.value_of_mem_image hc)
  rbFits := fits_of_legalWidth hw le_rfl zero_le_one
  inqFits := nofun
  outqFits := nofun
  causeSet := iff_of_false (fun h => h rfl) nofun
  infoClear := fun _ => rfl

/-- Settles O32: a program image is canonical and holds the program's values; the reset state is that of the empty
program. -/
theorem resetMeetsTheInvariant : Obligations.ResetMeetsTheInvariant :=
  ⟨load_inv (p := []) rfl rfl, fun _ _ => load_inv⟩

/-- Settles O31: RESET answers `State.load`, whose memory is read by `read_load`. -/
theorem resetLeavesTheListedState : Obligations.ResetLeavesTheListedState :=
  ⟨rfl, fun p s => ⟨_, request_reset p s, read_load p, rfl, rfl, rfl, rfl, rfl, rfl, rfl⟩⟩

end Sys2Proof.Machine
end

section
/-! PROOFS. What an execute stage leaves unchanged (20_memory.md R36), and the settlement of O20 and O21. -/

namespace Sys2Proof.Machine

variable {s t : State} {i : Instr} {d : Target}

theorem storeBinary_stores {compute : Int → Int → Except Trap Int} {a b : Operand}
    (h : storeBinary compute a b d s = .next t) :
    (∃ p v, wrAddr s d = .ok p ∧ t = (s.store p v).advance 4) ∨ ∃ e, t = s.enterFault e := by
  obtain ⟨_, _, p, v, _, _, hp, _, rfl⟩ | ⟨e, rfl, _⟩ := storeBinary_cases h
  · exact .inl ⟨p, v, hp, rfl⟩
  · exact .inr ⟨e, rfl⟩

/-- Everything an instruction with a destination can do: store one value there, having taken it from the input queue or
not; pause, if it is IN; or fault. -/
theorem exec_with_dest_cases (hi : i.dest = some d) (h : exec i s = .next t) :
    (∃ p v q n, wrAddr s d = .ok p ∧ (q = s.inq ∨ i.op = .inp ∧ q = s.inq.tail) ∧
      t = ((s.setInq q).store p v).advance n) ∨
    (i.op = .inp ∧ t = s.pause) ∨
    ∃ e, t = s.enterFault e := by
  cases i with
  | add a b dest | mul a b dest | lt a b dest | eq a b dest =>
    cases hi
    obtain ⟨p, v, hp, rfl⟩ | hfault := storeBinary_stores h
    · exact .inl ⟨p, v, s.inq, 4, hp, .inl rfl, rfl⟩
    · exact .inr (.inr hfault)
  | inp dest u2 u3 =>
    cases hi
    obtain ⟨p, v, rest, hp, hq, rfl⟩ | ⟨_, _, _, rfl⟩ | ⟨e, _, rfl⟩ := execIn_cases u2 u3 h
    · exact .inl ⟨p, v, rest, 2, hp, .inr ⟨rfl, by simp [hq]⟩, rfl⟩
    · exact .inr (.inl ⟨rfl, rfl⟩)
    · exact .inr (.inr ⟨e, rfl⟩)
  | out | jt | jf | arb | hlt => cases hi

/-- Everything an instruction without a destination can do. -/
theorem exec_without_dest_cases (hi : i.dest = none) (h : exec i s = .next t) :
    (i.op = .out ∧ ∃ x, t = (s.setOutq (s.outq ++ [x])).advance 2) ∨
    (∃ p, t = s.goto p) ∨
    (i.op = .arb ∧ ∃ v, t = (s.setRb v).advance 2) ∨
    (i.op = .hlt ∧ t = (s.setRunState .halted).advance 1) ∨
    ∃ e, t = s.enterFault e := by
  cases i with
  | add | mul | inp | lt | eq => cases hi
  | out a u2 u3 =>
    obtain ⟨x, _, rfl⟩ | ⟨e, _, rfl⟩ := execOut_cases u2 u3 h
    · exact .inl ⟨rfl, x, rfl⟩
    · exact .inr (.inr (.inr (.inr ⟨e, rfl⟩)))
  | jt a target u3 | jf a target u3 =>
    obtain ⟨_, _, _, _, _, _, rfl⟩ | ⟨_, _, _, _, _, rfl⟩ | ⟨e, _, _, rfl⟩ := jumpWhen_cases h
    · exact .inr (.inl ⟨_, rfl⟩)
    · exact .inr (.inl ⟨_, rfl⟩)
    · exact .inr (.inr (.inr (.inr ⟨e, rfl⟩)))
  | arb a u2 u3 =>
    obtain ⟨_, _, _, rfl⟩ | ⟨_, _, _, rfl⟩ | ⟨_, _, rfl⟩ := execArbAt_cases h
    · exact .inr (.inr (.inl ⟨rfl, _, rfl⟩))
    · exact .inr (.inr (.inr (.inr ⟨_, rfl⟩)))
    · exact .inr (.inr (.inr (.inr ⟨_, rfl⟩)))
  | hlt u1 u2 u3 =>
    cases h
    exact .inr (.inr (.inr (.inl ⟨rfl, rfl⟩)))

/-- Settles O20: a store reaches one cell and a fault or a pause none, so each item is read off the three cases. -/
theorem frameOfStoringInstructions : Obligations.FrameOfStoringInstructions := by
  intro i d s t hi h
  obtain ⟨p, v, q, n, hp, hq, rfl⟩ | ⟨hop, rfl⟩ | ⟨e, rfl⟩ := exec_with_dest_cases hi h
  · refine ⟨rfl, rfl, fun hop => hq.resolve_right fun hin => hop hin.1, fun _ => hq.imp_right And.right, .inl rfl,
      .inl ⟨rfl, rfl⟩, fun p' hp' a ha => ?_, fun e he => ?_⟩
    · cases hp.symm.trans hp'
      exact Memory.read_write_other ha
    · cases hp.symm.trans he
  · exact ⟨rfl, rfl, fun _ => rfl, fun _ => .inl rfl, .inr (.inr ⟨hop, rfl⟩), .inl ⟨rfl, rfl⟩, fun _ _ _ _ => rfl,
      fun _ _ _ => rfl⟩
  · exact ⟨rfl, rfl, fun _ => rfl, fun _ => .inl rfl, .inr (.inl rfl), .inr rfl, fun _ _ _ _ => rfl, fun _ _ _ => rfl⟩

/-- Settles O21: none of the five cases writes memory, and each writes the item of its own instruction alone. -/
theorem frameOfNonStoringInstructions : Obligations.FrameOfNonStoringInstructions := by
  intro i s t hi h
  obtain ⟨hop, x, rfl⟩ | ⟨p, rfl⟩ | ⟨hop, v, rfl⟩ | ⟨hop, rfl⟩ | ⟨e, rfl⟩ := exec_without_dest_cases hi h
  · exact ⟨fun _ => rfl, rfl, fun hne => absurd hop hne, fun _ => rfl, .inl rfl, .inl ⟨rfl, rfl⟩⟩
  · exact ⟨fun _ => rfl, rfl, fun _ => rfl, fun _ => rfl, .inl rfl, .inl ⟨rfl, rfl⟩⟩
  · exact ⟨fun _ => rfl, rfl, fun _ => rfl, fun hne => absurd hop hne, .inl rfl, .inl ⟨rfl, rfl⟩⟩
  · exact ⟨fun _ => rfl, rfl, fun _ => rfl, fun _ => rfl, .inr (.inr ⟨hop, rfl⟩), .inl ⟨rfl, rfl⟩⟩
  · exact ⟨fun _ => rfl, rfl, fun _ => rfl, fun _ => rfl, .inr (.inl rfl), .inr rfl⟩

end Sys2Proof.Machine
end

section
/-! PROOFS. What sessions keep (47_host_operations.md R141): a RUN keeps what every step keeps, and the settlement of O35,
O29 and O30. -/

namespace Sys2Proof.Machine

variable {s t : State} {P : State → Prop} {x : Transaction} {r : Reply}

theorem core_run_keeps (hstep : ∀ {u v}, P u → step u = .next v → P v) {n : Nat} (hs : P s)
    (h : core.run n s = .next t) : P t := by
  induction n generalizing s with
  | zero =>
    cases h
    exact hs
  | succ n ih =>
    obtain ⟨u, hu⟩ := step_answers_next s
    exact ih (hstep hs hu) ((core_run_succ hu n).symm.trans h)

/-- Where a RUN returns is reached by steps. -/
theorem RunReturns.exists_core_run (h : RunReturns s t) : ∃ n, core.run n s = .next t := by
  cases hs : s.stopped with
  | true =>
    obtain rfl := (runReturns_of_stopped hs).mp h
    exact ⟨0, rfl⟩
  | false =>
    obtain ⟨k, hrun, _⟩ := (runReturns_iff_stopsAfter hs).mp h
    exact ⟨k + 1, hrun⟩

theorem step_of_request (h : request .step s = .next (t, r)) : step s = .next t := by
  obtain ⟨u, hu⟩ := step_answers_next s
  rw [request_step, hu] at h
  cases h
  exact hu

/-- A transaction keeps what every step keeps, if its port does. -/
theorem Performs.keeps (hstep : ∀ {u v}, P u → step u = .next v → P v)
    (hport : ∀ q, x = .ask q → P (port s q).1) (hs : P s) (h : Performs s x r t) : P t := by
  cases x with
  | run =>
    obtain ⟨n, hrun⟩ := h.1.exists_core_run
    exact core_run_keeps hstep hs hrun
  | ask q =>
    by_cases hq : q = .step
    · subst hq
      exact hstep hs (step_of_request h)
    · have hp := hport q rfl
      rwa [port_of_request h hq] at hp

/-- At this hardware's width every argument fits, so no port can bring in a value that does not. -/
theorem port_keeps_inv (q : Request) (hinv : s.Inv) : (port s q).1.Inv := by
  cases q with
  | reset p => exact load_inv (width := none) rfl (List.all_eq_true.mpr fun _ _ => rfl)
  | addInput v => exact hinv.setInq fun _ _ => rfl
  | popOutputFront => exact hinv.setOutq fun _ _ => rfl
  | popOutputBack => exact hinv.setOutq fun _ _ => rfl
  | writeMem a v => exact hinv.store (width := none) rfl _
  | _ => exact hinv

/-- Settles O35: by induction on the session, with the step's invariant for RUN and STEP and the ports' for the rest. -/
theorem sessionKeepsTheInvariant : Obligations.SessionKeepsTheInvariant := by
  intro l
  induction l with
  | nil =>
    rintro s t hs rfl
    exact hs
  | cons xr l ih =>
    rintro s t hs ⟨u, hu, hrest⟩
    exact ih u t (hu.keeps step_keeps_inv (fun q _ => port_keeps_inv q hs) hs) hrest

/-- An execute stage takes at most the oldest input and adds at most one output, at the back. -/
theorem exec_queues {i : Instr} (h : exec i s = .next t) : t.inq <:+ s.inq ∧ s.outq <+: t.outq := by
  cases hi : i.dest with
  | some d =>
    obtain ⟨_, _, _, _, _, rfl | ⟨_, rfl⟩, rfl⟩ | ⟨_, rfl⟩ | ⟨_, rfl⟩ := exec_with_dest_cases hi h
    · exact ⟨List.suffix_rfl, List.prefix_rfl⟩
    · exact ⟨List.tail_suffix _, List.prefix_rfl⟩
    · exact ⟨List.suffix_rfl, List.prefix_rfl⟩
    · exact ⟨List.suffix_rfl, List.prefix_rfl⟩
  | none =>
    obtain ⟨_, x, rfl⟩ | ⟨_, rfl⟩ | ⟨_, _, rfl⟩ | ⟨_, rfl⟩ | ⟨_, rfl⟩ := exec_without_dest_cases hi h
    · exact ⟨List.suffix_rfl, List.prefix_append _ _⟩
    · exact ⟨List.suffix_rfl, List.prefix_rfl⟩
    · exact ⟨List.suffix_rfl, List.prefix_rfl⟩
    · exact ⟨List.suffix_rfl, List.prefix_rfl⟩
    · exact ⟨List.suffix_rfl, List.prefix_rfl⟩

theorem step_queues (h : step s = .next t) : t.inq <:+ s.inq ∧ s.outq <+: t.outq := by
  obtain ⟨_, rfl⟩ | ⟨_, _, _, he⟩ | ⟨_, _, _, rfl⟩ := step_cases h
  · exact ⟨List.suffix_rfl, List.prefix_rfl⟩
  · exact exec_queues (s := s.resume) he
  · exact ⟨List.suffix_rfl, List.prefix_rfl⟩

/-- ADD_INPUT is the one transaction that puts anything into the input queue. -/
theorem port_inq {q : Request} (hreset : ∀ p, q ≠ .reset p) :
    (port s q).1.inq = s.inq ++ addedInputs [(.ask q, r)] := by
  cases q with
  | reset p => exact absurd rfl (hreset p)
  | addInput v => rfl
  | _ => exact (List.append_nil _).symm

/-- Only RESET and the pops can take anything out of the output queue. -/
theorem port_outq {q : Request} (hreset : ∀ p, q ≠ .reset p) (hfront : q ≠ .popOutputFront)
    (hback : q ≠ .popOutputBack) : (port s q).1.outq = s.outq := by
  cases q with
  | reset p => exact absurd rfl (hreset p)
  | popOutputFront => exact absurd rfl hfront
  | popOutputBack => exact absurd rfl hback
  | _ => rfl

theorem Performs.inq_suffix (h : Performs s x r t) (hreset : ∀ p, x ≠ .ask (.reset p)) :
    t.inq <:+ s.inq ++ addedInputs [(x, r)] := by
  cases x with
  | run =>
    obtain ⟨n, hrun⟩ := h.1.exists_core_run
    rw [show addedInputs [(.run, r)] = [] from rfl, List.append_nil]
    exact core_run_keeps (P := fun u => u.inq <:+ s.inq) (fun hu hv => (step_queues hv).1.trans hu) List.suffix_rfl hrun
  | ask q =>
    by_cases hq : q = .step
    · subst hq
      rw [show addedInputs [(.ask .step, r)] = [] from rfl, List.append_nil]
      exact (step_queues (step_of_request h)).1
    · obtain rfl : (port s q).1 = t := congrArg Prod.fst (port_of_request h hq)
      exact port_inq (fun p hp => hreset p (congrArg _ hp)) ▸ List.suffix_rfl

theorem Performs.outq_prefix (h : Performs s x r t) (hreset : ∀ p, x ≠ .ask (.reset p))
    (hpop : x ≠ .ask .popOutputFront ∧ x ≠ .ask .popOutputBack) : s.outq <+: t.outq := by
  obtain ⟨hfront, hback⟩ := hpop
  refine h.keeps (P := fun u => s.outq <+: u.outq) (fun hu hv => hu.trans (step_queues hv).2) (fun q hq => ?_)
    List.prefix_rfl
  subst hq
  rw [port_outq (fun p hp => hreset p (congrArg _ hp)) (fun hp => hfront (congrArg _ hp))
    (fun hp => hback (congrArg _ hp))]

theorem suffix_append_right {l m : List Int} (h : l <:+ m) (k : List Int) : l ++ k <:+ m ++ k := by
  obtain ⟨before, rfl⟩ := h
  exact ⟨before, (List.append_assoc _ _ _).symm⟩

theorem addedInputs_cons (xr : Transaction × Reply) (l : List (Transaction × Reply)) :
    addedInputs (xr :: l) = addedInputs [xr] ++ addedInputs l := by
  obtain ⟨x, r⟩ := xr
  cases x with
  | run => rfl
  | ask q => cases q with
    | _ => rfl

/-- Settles O29: by induction on the session, with "is a suffix of" in place of `drop`, which is transitive. -/
theorem inputQueueIsFirstInFirstOut : Obligations.InputQueueIsFirstInFirstOut := by
  suffices hsuffix : ∀ l s t, NoReset l → Session s l t → t.inq <:+ s.inq ++ addedInputs l from
    fun l s t hl h => ⟨_, List.suffix_iff_eq_drop.mp (hsuffix l s t hl h)⟩
  intro l
  induction l with
  | nil =>
    rintro s t - rfl
    exact (List.append_nil _).symm ▸ List.suffix_rfl
  | cons xr l ih =>
    rintro s t hl ⟨u, hu, hrest⟩
    obtain ⟨hx, hl⟩ := List.forall_mem_cons.mp hl
    rw [addedInputs_cons, ← List.append_assoc]
    exact (ih u t hl hrest).trans (suffix_append_right (hu.inq_suffix hx) _)

/-- Settles O30: by induction on the session, as each transaction left in it only adds at the back. -/
theorem outputQueueKeepsItsOrder : Obligations.OutputQueueKeepsItsOrder := by
  suffices hprefix : ∀ l s t, NoReset l → NoPop l → Session s l t → s.outq <+: t.outq from
    fun l s t hl hpop h => (hprefix l s t hl hpop h).imp fun _ => Eq.symm
  intro l
  induction l with
  | nil =>
    rintro s t - - rfl
    exact List.prefix_rfl
  | cons xr l ih =>
    rintro s t hl hpop ⟨u, hu, hrest⟩
    obtain ⟨hx, hl⟩ := List.forall_mem_cons.mp hl
    obtain ⟨hpopx, hpop⟩ := List.forall_mem_cons.mp hpop
    exact (hu.outq_prefix hx hpopx).trans (ih u t hl hpop hrest)

end Sys2Proof.Machine
end

section
/-! PROOFS. Memory as a function of its addresses (20_memory.md R34; log entry 2), and the settlement of O36 and O37. -/

namespace Sys2Proof.Machine

variable {a k : Nat} {x : Int} {m n : Memory}

theorem Memory.wf_tail (h : Memory.wf ((k, x) :: m)) : m.wf :=
  ⟨(List.pairwise_cons.mp h.1).2, fun c hc => h.2 c (List.mem_cons_of_mem _ hc)⟩

/-- The first cell of a canonical memory does not read 0. -/
theorem Memory.read_head_ne_zero (h : Memory.wf ((k, x) :: m)) : Memory.read ((k, x) :: m) k ≠ 0 := by
  rw [Memory.read_cons, if_pos rfl]
  exact h.2 (k, x) (.head _)

theorem Memory.read_of_not_listed (h : ∀ c ∈ m, c.1 ≠ a) : m.read a = 0 := by
  obtain h0 | hmem := Memory.read_eq_zero_or_mem m a
  · exact h0
  · exact absurd rfl (h _ hmem)

theorem Memory.read_below_head (h : Memory.wf ((k, x) :: m)) (ha : a < k) : Memory.read ((k, x) :: m) a = 0 := by
  refine Memory.read_of_not_listed fun c hc => ?_
  obtain rfl | hc := List.mem_cons.mp hc
  · exact ha.ne'
  · exact (ha.trans ((List.pairwise_cons.mp h.1).1 c hc)).ne'

theorem Memory.read_tail_at_head (h : Memory.wf ((k, x) :: m)) : m.read k = 0 :=
  Memory.read_of_not_listed fun c hc => ((List.pairwise_cons.mp h.1).1 c hc).ne'

/-- Canonical memories that read alike have the same first address: at a lower one only one would read non-zero. -/
theorem Memory.head_le_of_read_eq {j : Nat} {y : Int} (hm : Memory.wf ((k, x) :: m)) (hn : Memory.wf ((j, y) :: n))
    (h : ∀ a, Memory.read ((k, x) :: m) a = Memory.read ((j, y) :: n) a) : j ≤ k :=
  not_lt.mp fun hlt => Memory.read_head_ne_zero hm ((h k).trans (Memory.read_below_head hn hlt))

theorem Memory.eq_of_read_eq (hm : m.wf) (hn : n.wf) (h : ∀ a, m.read a = n.read a) : m = n := by
  induction m generalizing n with
  | nil =>
    cases n with
    | nil => rfl
    | cons c n => exact absurd (h c.1).symm (Memory.read_head_ne_zero hn)
  | cons c m ih =>
    cases n with
    | nil => exact absurd (h c.1) (Memory.read_head_ne_zero hm)
    | cons d n =>
      obtain ⟨k, x⟩ := c
      obtain ⟨j, y⟩ := d
      obtain rfl : k = j :=
        le_antisymm (Memory.head_le_of_read_eq hn hm fun a => (h a).symm) (Memory.head_le_of_read_eq hm hn h)
      have hvalue : x = y := by simpa [Memory.read_cons] using h k
      have htail : ∀ a, Memory.read m a = Memory.read n a := by
        intro a
        by_cases ha : k = a
        · subst ha
          rw [Memory.read_tail_at_head hm, Memory.read_tail_at_head hn]
        · simpa [Memory.read_cons, ha] using h a
      rw [hvalue, ih (Memory.wf_tail hm) (Memory.wf_tail hn) htail]

/-- Settles O36: by induction on both lists, whose first cells agree. -/
theorem canonicalMemoriesThatReadAlikeAreEqual : Obligations.CanonicalMemoriesThatReadAlikeAreEqual :=
  fun _ _ => Memory.eq_of_read_eq

/-- Settles O37: by induction on the writes from the last one back; what none of them wrote was loaded. -/
theorem readReturnsTheLastWrite : Obligations.ReadReturnsTheLastWrite := by
  intro p writes a
  induction writes using List.reverseRecOn with
  | nil => exact read_load p a
  | append_singleton writes w ih =>
    rw [List.foldl_append, List.foldl_cons, List.foldl_nil, List.reverse_append, List.reverse_singleton,
      List.singleton_append, Memory.read_write]
    by_cases hw : w.1 = a
    · rw [if_pos hw.symm, List.find?_cons_of_pos (by simp [hw])]
    · rw [if_neg (Ne.symm hw), List.find?_cons_of_neg (by simp [hw]), ih]

end Sys2Proof.Machine
end

section
/-! PROOFS. Transactions and single steps: what is refused (47_host_operations.md R142), HLT and a halted core (46_halt.md
R135), a jump to itself (R149), and the settlement of O9, O19, O42, O43, O45 and O46. -/

namespace Sys2Proof

/-- HLT has no parameter: its three digits are kept as they are (R53). -/
theorem decode_hlt {w : Int} {o : Nat → Int} (h0 : 0 ≤ w) (hcode : w % 100 = 99) :
    decode w o =
      if BadDigits w then .error .invalidMode
      else .ok (.hlt (modeOf (digit 2 w)) (modeOf (digit 3 w)) (modeOf (digit 4 w))) :=
  decode_of_opcode (op := .hlt) h0 hcode fun m1 m2 m3 h1 h2 h3 => by
    rw [h1, h2, h3, modeOf_digit, modeOf_digit, modeOf_digit, assemble]

namespace Machine

variable {s t : State}

theorem exec_hlt (u1 u2 u3 : Mode) (s : State) :
    exec (.hlt u1 u2 u3) s = .next ((s.setRunState .halted).advance 1) := rfl

/-- Settles O19: every mode digit is legal for HLT, and its execute stage resolves nothing. -/
theorem hltHalts : Obligations.HltHalts := ⟨fun _ _ => decode_hlt, exec_hlt⟩

/-- Settles O9: the cells at the pc are what is fetched. -/
theorem stepRunsTheInstructionAtThePc : Obligations.StepRunsTheInstructionAtThePc :=
  fun _ _ hr h => step_of_holdsAtPc (not_stopped_iff.mpr hr) h

/-- Settles O42: the three ports answer with items of the state. -/
theorem faultAndPeekPortsReadTheState : Obligations.FaultAndPeekPortsReadTheState :=
  fun s => ⟨request_of_inDomain (q := .isFaulted) s rfl nofun, request_of_inDomain (q := .faultStatus) s rfl nofun,
    request_of_inDomain (q := .peekAllOutput) s rfl nofun⟩

section Refusal

variable {width : Option Nat} {q : Request}

/-- A step answers a next state at every width. -/
theorem stepAt_answers_next (width : Option Nat) (s : State) : ∃ t, stepAt width s = .next t := by
  unfold stepAt stepWith coreStepWith
  split
  · exact ⟨_, rfl⟩
  · cases fetch s.resume with
    | ok i => exact execAt_answers_next width i s.resume
    | error e => exact ⟨_, rfl⟩

theorem answer_of_inDomain (hd : q.inDomain width = true) :
    ∃ t r, answer width (stepAt width) q s = .next (t, r) := by
  unfold answer
  rw [if_pos hd]
  cases q with
  | step =>
    obtain ⟨t, ht⟩ := stepAt_answers_next width s
    exact ⟨t, .none, congrArg withNoReply ht⟩
  | _ => exact ⟨_, _, rfl⟩

theorem answer_refused_iff :
    q.inDomain width = false ↔ answer width (stepAt width) q s = .refused .hostArgument := by
  cases hd : q.inDomain width with
  | false => simp [answer, hd]
  | true =>
    obtain ⟨t, r, h⟩ := answer_of_inDomain (s := s) hd
    simp [h]

theorem request_eq_answer (q : Request) (s : State) : request q s = answer none (stepAt none) q s := by
  rw [funext stepAt_none]
  rfl

/-- With every value in range only an address can be out of its domain. -/
theorem inDomain_none_eq_false_iff :
    q.inDomain none = false ↔ ∃ a, a < 0 ∧ (q = .readMem a ∨ ∃ v, q = .writeMem a v) := by
  cases q with
  | readMem a => simp [Request.inDomain]
  | writeMem a v => simp [Request.inDomain, fits]
  | _ => simp [Request.inDomain, fits]

/-- Settles O43: an answer starts with the domain test, and past it every transaction is answered. -/
theorem outOfDomainArgumentsAreRefused : Obligations.OutOfDomainArgumentsAreRefused := by
  refine ⟨fun width q s => ⟨answer_refused_iff, answer_of_inDomain⟩, fun q s => ⟨request_eq_answer q s, ?_⟩⟩
  rw [request_eq_answer, ← answer_refused_iff, inDomain_none_eq_false_iff]

end Refusal

section SelfJump

theorem exec_self_jump {condition : Int → Bool} {a target : Operand} {x : Int} (ha : rdVal s a = .ok x)
    (ht : rdVal s target = .ok (s.pc : Int)) (hc : condition x = true) :
    jumpWhen condition a target s = .next s :=
  jumpWhen_taken_of_nonneg ha ht hc (Int.natCast_nonneg s.pc)

/-- A core that steps to its own resumed state stays there under any number of steps. -/
theorem core_run_of_step_resume (hs : s.stopped = false) (h : step s = .next s.resume) (n : Nat) :
    core.run (n + 1) s = .next s.resume := by
  induction n with
  | zero => exact core_run_one h
  | succ n ih => rw [core_run_succ h, core_run_resume hs, ih]

theorem not_runReturns_of_step_resume (hs : s.stopped = false) (h : step s = .next s.resume) (t : State) :
    ¬ RunReturns s t := by
  intro ht
  obtain ⟨k, hrun, hstop, _⟩ := (runReturns_iff_stopsAfter hs).mp ht
  cases hrun.symm.trans (core_run_of_step_resume hs h k)
  exact hstop rfl

/-- Settles O45: the jump's execute stage gives back its own state, so a RUN never leaves `Running`. -/
theorem runOfASelfJumpNeverReturns : Obligations.RunOfASelfJumpNeverReturns := by
  intro s a t u x hs hf ha ht
  have ha : rdVal s.resume a = .ok x := (rdVal_resume s a).trans ha
  have ht : rdVal s.resume t = .ok (s.resume.pc : Int) := (rdVal_resume s t).trans ht
  have hstep : step s = .next s.resume := by
    obtain ⟨hf, hx⟩ | ⟨hf, hx⟩ := hf
    · exact (step_of_fetch_ok hs hf).trans (exec_self_jump ha ht (isNonzero_iff.mpr hx))
    · exact (step_of_fetch_ok hs hf).trans (exec_self_jump ha ht (isZero_iff.mpr hx))
  exact ⟨hstep, not_runReturns_of_step_resume hs hstep⟩

end SelfJump

section HaltedPc

variable {s' : State} {x : Transaction} {r : Reply}

/-- The ports read and write every item of the state but the pc. -/
theorem port_goto {q : Request} (hreset : ∀ p, q ≠ .reset p) (s : State) (a : Nat) :
    port (s.goto a) q = ((port s q).1.goto a, (port s q).2) := by
  cases q with
  | reset p => exact absurd rfl (hreset p)
  | _ => rfl

theorem inDomain_of_request {q : Request} (h : request q s = .next (t, r)) :
    q.inDomain Config.valueBits = true := by
  by_contra hd
  unfold request answer at h
  rw [if_neg hd] at h
  cases h

/-- On a stopped core no transaction but RESET depends on the pc, or changes it. -/
theorem performs_goto_of_stopped (hs : s.stopped = true) (hreset : ∀ p, x ≠ .ask (.reset p)) (h : Performs s x r t)
    (a : Nat) : Performs (s.goto a) x r (t.goto a) ∧ t.stopped = true := by
  have hgoto : (s.goto a).stopped = true := hs
  cases x with
  | run =>
    obtain ⟨hrun, rfl⟩ := h
    obtain rfl := (runReturns_of_stopped hs).mp hrun
    exact ⟨⟨(runReturns_of_stopped hgoto).mpr rfl, rfl⟩, hs⟩
  | ask q =>
    have hreset : ∀ p, q ≠ .reset p := fun p hp => hreset p (congrArg _ hp)
    obtain ⟨_, _, _, ht⟩ := request_of_stopped_changes_memory_and_queues hs h hreset
    refine ⟨?_, ht ▸ hs⟩
    by_cases hq : q = .step
    · subst hq
      rw [Performs, request_step, step_of_stopped hs] at h
      cases h
      exact congrArg withNoReply (step_of_stopped hgoto)
    · rw [Performs, request_of_inDomain _ (inDomain_of_request h) hq, port_goto hreset, port_of_request h hq]

/-- A session from a stopped core can be had from any other pc, with the same replies. -/
theorem session_goto_of_stopped (l : List (Transaction × Reply)) (hs : s.stopped = true) (h : Session s l s')
    (a : Nat) : ∃ t', Session (s.goto a) l t' ∧ SameButPc s' t' := by
  induction l generalizing s with
  | nil =>
    obtain rfl := h
    exact ⟨_, rfl, rfl⟩
  | cons xr l ih =>
    obtain ⟨x, r⟩ := xr
    obtain ⟨u, hu, hrest⟩ := h
    by_cases hx : ∃ p, x = .ask (.reset p)
    · obtain ⟨p, rfl⟩ := hx
      exact ⟨s', ⟨u, ((request_reset p _).trans (request_reset p s).symm).trans hu, hrest⟩, rfl⟩
    · obtain ⟨hu', hstopped⟩ := performs_goto_of_stopped hs (not_exists.mp hx) hu a
      obtain ⟨t', ht', hsame⟩ := ih hstopped hrest
      exact ⟨t', ⟨_, hu', ht'⟩, hsame⟩

/-- Settles O46: `SameButPc` is a `goto`, which no transaction on a halted core can see, and RESET forgets. -/
theorem haltedProgramCounterIsUnobservable : Obligations.HaltedProgramCounterIsUnobservable := by
  intro l s t s' hr hsame h
  obtain ⟨t', ht', hsame'⟩ := session_goto_of_stopped l (stopped_iff.mpr (.inl hr)) h t.pc
  rw [show s.goto t.pc = t from hsame] at ht'
  exact ⟨t', ht', hsame'⟩

end HaltedPc

end Machine

end Sys2Proof
end

section
/-! PROOFS. The first parameter that does not resolve decides the execute stage (40_execution_cycle.md R81); from it the
outcomes of an execute stage and of a step (R72), and the settlement of O22, O23, O24 and O48. -/

namespace Sys2Proof.Machine

variable {s t : State} {i : Instr} {e : Trap}

/-- The trap of a resolution, if it fails. -/
def trapOf {α : Type} : Except Trap α → Option Trap
  | .ok _ => none
  | .error e => some e

theorem trapOf_eq_none_iff {α : Type} {r : Except Trap α} : trapOf r = none ↔ ∃ x, r = .ok x := by
  cases r <;> simp [trapOf]

theorem trapOf_eq_some_iff {α : Type} {r : Except Trap α} : trapOf r = some e ↔ r = .error e := by
  cases r <;> simp [trapOf]

/-- The trap of the first parameter that does not resolve, the destination last (R81). -/
def firstTrap (s : State) (i : Instr) : Option Trap :=
  (i.reads.findSome? fun a => trapOf (rdVal s a)).or (i.dest.bind fun d => trapOf (wrAddr s d))

theorem firstTrap_eq_none_iff : firstTrap s i = none ↔ i.ResolvesIn s := by
  simp [firstTrap, Instr.ResolvesIn, trapOf_eq_none_iff]

theorem firstTrap_negative (h : firstTrap s i = some e) : e.cause = .negativeAddress ∧ e.info < 0 := by
  obtain hread | ⟨_, hdest⟩ := Option.or_eq_some_iff.mp h
  · obtain ⟨a, _, ha⟩ := List.exists_of_findSome?_eq_some hread
    exact rdVal_error (trapOf_eq_some_iff.mp ha)
  · obtain ⟨d, _, hd⟩ := Option.bind_eq_some_iff.mp hdest
    exact wrAddr_error (trapOf_eq_some_iff.mp hd)

theorem storeBinary_of_firstTrap {compute : Int → Int → Except Trap Int} {a b : Operand} {d : Target}
    (h : ([a, b].findSome? fun a => trapOf (rdVal s a)).or (trapOf (wrAddr s d)) = some e) :
    storeBinary compute a b d s = .next (s.enterFault e) := by
  cases ha : rdVal s a with
  | error e' =>
    obtain rfl : e' = e := by simpa [ha, trapOf] using h
    exact storeBinary_faults_first ha
  | ok x =>
    cases hb : rdVal s b with
    | error e' =>
      obtain rfl : e' = e := by simpa [ha, hb, trapOf] using h
      exact storeBinary_faults_second ha hb
    | ok y => exact storeBinary_faults_dest ha hb (trapOf_eq_some_iff.mp (by simpa [ha, hb, trapOf] using h))

theorem jumpWhen_of_firstTrap {condition : Int → Bool} {a target : Operand}
    (h : ([a, target].findSome? fun a => trapOf (rdVal s a)).or none = some e) :
    jumpWhen condition a target s = .next (s.enterFault e) := by
  cases ha : rdVal s a with
  | error e' =>
    obtain rfl : e' = e := by simpa [ha, trapOf] using h
    exact jumpWhen_faults_first ha
  | ok x => exact jumpWhen_faults_second ha (trapOf_eq_some_iff.mp (by simpa [ha, trapOf] using h))

/-- A parameter that does not resolve faults before anything else is done, at every width. -/
theorem execAt_of_firstTrap (width : Option Nat) (h : firstTrap s i = some e) :
    execAt width i s = .next (s.enterFault e) := by
  cases i with
  | add a b d | mul a b d | lt a b d | eq a b d => exact storeBinary_of_firstTrap h
  | jt a target u3 | jf a target u3 => exact jumpWhen_of_firstTrap h
  | inp d u2 u3 => exact execIn_faults u2 u3 (trapOf_eq_some_iff.mp h)
  | out a u2 u3 =>
    have ha : rdVal s a = .error e := trapOf_eq_some_iff.mp (by simpa [firstTrap, Instr.reads, Instr.dest] using h)
    exact execOut_faults u2 u3 ha
  | arb a u2 u3 =>
    have ha : rdVal s a = .error e := trapOf_eq_some_iff.mp (by simpa [firstTrap, Instr.reads, Instr.dest] using h)
    exact execArbAt_faults ha
  | hlt u1 u2 u3 => cases h

/-- The instruction, not HLT, completes from `s` to `t` (R72, R80): it finds its parameters, its input and its target, and
it leaves the fault registers alone and the pc where R80 says. -/
structure Completes (i : Instr) (s t : State) : Prop where
  notHlt : i.op ≠ .hlt
  hasInput : i.op = .inp → s.inq ≠ []
  resolves : i.ResolvesIn s
  targetOk : ∀ y, jumpTarget s i = some y → 0 ≤ y
  faultCause : t.faultCause = s.faultCause
  faultInfo : t.faultInfo = s.faultInfo
  pc : (t.pc : Int) = (jumpTarget s i).getD ((s.pc : Int) + i.op.length)

/-- The four outcomes of an execute stage. -/
inductive ExecOutcome (s : State) : Instr → State → Prop
  | completes {i : Instr} {t : State} (hrun : t.runState = s.runState) (h : Completes i s t) : ExecOutcome s i t
  | halts (u1 u2 u3 : Mode) : ExecOutcome s (.hlt u1 u2 u3) ((s.setRunState .halted).advance 1)
  | pauses {d : Target} {p : Nat} (u2 u3 : Mode) (hd : wrAddr s d = .ok p) (hq : s.inq = []) :
      ExecOutcome s (.inp d u2 u3) s.pause
  | faults {i : Instr} {e : Trap} (hcause : e.cause = .negativeAddress) (hinfo : e.info < 0)
      (hwhy : ¬ i.ResolvesIn s ∨ ∃ y, jumpTarget s i = some y ∧ y < 0) : ExecOutcome s i (s.enterFault e)

/-- An instruction that is no jump goes on to the next one by its length. -/
theorem Completes.of_no_jump (hop : i.op ≠ .hlt) (hinput : i.op = .inp → s.inq ≠ []) (hres : i.ResolvesIn s)
    (hjump : jumpTarget s i = none) (hcause : t.faultCause = s.faultCause) (hinfo : t.faultInfo = s.faultInfo)
    (hpc : t.pc = s.pc + i.op.length) : Completes i s t where
  notHlt := hop
  hasInput := hinput
  resolves := hres
  targetOk := by simp [hjump]
  faultCause := hcause
  faultInfo := hinfo
  pc := by simp [hjump, hpc]

section Jump

variable {condition : Int → Bool} {a target : Operand} {x y : Int}

/-- JT and JF: not taken, taken to an address, and taken to a negative target (R110 to R112). -/
theorem jumpWhen_outcome (hop : i.op = .jt ∨ i.op = .jf) (hres : i.ResolvesIn s) (ha : rdVal s a = .ok x)
    (ht : rdVal s target = .ok y) (htarget : jumpTarget s i = if condition x then some y else none)
    (h : jumpWhen condition a target s = .next t) : ExecOutcome s i t := by
  have hnotHlt : i.op ≠ .hlt := by rcases hop with hop | hop <;> simp [hop]
  have hnotInp : i.op = .inp → s.inq ≠ [] := by rcases hop with hop | hop <;> simp [hop]
  have hlength : i.op.length = 3 := by rcases hop with hop | hop <;> simp [hop, Op.length]
  cases hc : condition x with
  | false =>
    cases (jumpWhen_not_taken ha ht hc).symm.trans h
    exact .completes rfl (.of_no_jump hnotHlt hnotInp hres (by simp [htarget, hc]) rfl rfl (by simp [hlength]))
  | true =>
    have htarget : jumpTarget s i = some y := by simp [htarget, hc]
    obtain hy | hy := le_or_gt 0 y
    · cases (jumpWhen_taken_of_nonneg ha ht hc hy).symm.trans h
      exact .completes rfl ⟨hnotHlt, hnotInp, hres, by simp [htarget, hy], rfl, rfl, by simp [htarget, hy]⟩
    · cases (jumpWhen_taken_of_neg ha ht hc hy).symm.trans h
      exact .faults rfl hy (.inr ⟨y, htarget, hy⟩)

end Jump

/-- Everything an execute stage at this hardware's width can do. -/
theorem exec_outcome (h : exec i s = .next t) : ExecOutcome s i t := by
  cases htrap : firstTrap s i with
  | some e =>
    obtain ⟨hcause, hinfo⟩ := firstTrap_negative htrap
    cases (execAt_of_firstTrap none htrap).symm.trans ((execAt_none i s).trans h)
    exact .faults hcause hinfo (.inl fun hres => by simp [firstTrap_eq_none_iff.mpr hres] at htrap)
  | none =>
    have hres := firstTrap_eq_none_iff.mp htrap
    have ⟨hreads, hdest⟩ := hres
    cases i with
    | add a b d | mul a b d | lt a b d | eq a b d =>
      obtain ⟨x, hx⟩ := hreads a (by simp [Instr.reads])
      obtain ⟨y, hy⟩ := hreads b (by simp [Instr.reads])
      obtain ⟨p, hp⟩ := hdest d rfl
      cases h.symm.trans (storeBinary_completes hx hy hp rfl)
      exact .completes rfl (.of_no_jump nofun nofun hres rfl rfl rfl rfl)
    | inp d u2 u3 =>
      obtain ⟨p, v, rest, _, hq, rfl⟩ | ⟨p, hp, hq, rfl⟩ | ⟨e, he, _⟩ := execIn_cases u2 u3 h
      · exact .completes rfl (.of_no_jump nofun (fun _ => by simp [hq]) hres rfl rfl rfl rfl)
      · exact .pauses u2 u3 hp hq
      · obtain ⟨p, hp⟩ := hdest d rfl
        cases hp.symm.trans he
    | out a u2 u3 =>
      obtain ⟨x, hx⟩ := hreads a (by simp [Instr.reads])
      cases h.symm.trans (execOut_completes u2 u3 hx)
      exact .completes rfl (.of_no_jump nofun nofun hres rfl rfl rfl rfl)
    | jt a target u3 =>
      obtain ⟨x, hx⟩ := hreads a (by simp [Instr.reads])
      obtain ⟨y, hy⟩ := hreads target (by simp [Instr.reads])
      exact jumpWhen_outcome (.inl rfl) hres hx hy (by simp [jumpTarget, hx, hy, isNonzero_iff]) h
    | jf a target u3 =>
      obtain ⟨x, hx⟩ := hreads a (by simp [Instr.reads])
      obtain ⟨y, hy⟩ := hreads target (by simp [Instr.reads])
      exact jumpWhen_outcome (.inr rfl) hres hx hy (by simp [jumpTarget, hx, hy, isZero_iff]) h
    | arb a u2 u3 =>
      obtain ⟨x, hx⟩ := hreads a (by simp [Instr.reads])
      cases h.symm.trans (execArbAt_completes hx rfl)
      exact .completes rfl (.of_no_jump nofun nofun hres rfl rfl rfl rfl)
    | hlt u1 u2 u3 =>
      cases h
      exact .halts u1 u2 u3

/-- What the info of a fault is, by its cause (R174). -/
def PreciseTrap (s : State) (e : Trap) : Prop :=
  (e.cause = .negativeAddress ∧ e.info < 0) ∨
  (e.info = s.mem.read s.pc ∧
    (e.cause = .invalidOpcode ∨ e.cause = .invalidMode ∨ e.cause = .immediateWriteTarget))

/-- The four outcomes of a step on a core that is not stopped (R72). -/
inductive StepOutcome (s : State) : State → Prop
  | completes {i : Instr} {t : State} (hf : fetch s = .ok i) (hrun : t.runState = .running) (h : Completes i s t) :
      StepOutcome s t
  | halts {u1 u2 u3 : Mode} (hf : fetch s = .ok (.hlt u1 u2 u3)) :
      StepOutcome s ((s.setRunState .halted).advance 1)
  | pauses (h : StarvedAtPc s) : StepOutcome s s.pause
  | faults {e : Trap} (h : FaultsAtPc s) (hinfo : PreciseTrap s e) : StepOutcome s (s.enterFault e)

theorem resolvesIn_resume : i.ResolvesIn s.resume ↔ i.ResolvesIn s := by
  simp [Instr.ResolvesIn]

@[simp] theorem jumpTarget_resume (s : State) (i : Instr) : jumpTarget s.resume i = jumpTarget s i := by
  cases i <;> simp [jumpTarget]

theorem Completes.of_resume (h : Completes i s.resume t) : Completes i s t :=
  { h with
    resolves := resolvesIn_resume.mp h.resolves
    targetOk := jumpTarget_resume s i ▸ h.targetOk
    pc := jumpTarget_resume s i ▸ h.pc }

theorem step_outcome (hs : s.stopped = false) (h : step s = .next t) : StepOutcome s t := by
  obtain ⟨hstop, _⟩ | ⟨i, _, hf, he⟩ | ⟨e, _, hf, rfl⟩ := step_cases h
  · cases hs.symm.trans hstop
  · cases exec_outcome he with
    | completes hrun h => exact .completes hf hrun h.of_resume
    | halts u1 u2 u3 => exact .halts hf
    | pauses u2 u3 hd hq => exact .pauses ⟨_, u2, u3, _, hf, (wrAddr_resume s _).symm.trans hd, hq⟩
    | faults hcause hinfo hwhy =>
      rw [resolvesIn_resume, jumpTarget_resume] at hwhy
      exact .faults (.inr ⟨i, hf, hwhy⟩) (.inl ⟨hcause, hinfo⟩)
  · exact .faults (.inl ⟨e, hf⟩) (.inr (fetch_error hf))

theorem PreciseTrap.cause_ne (h : PreciseTrap s e) : e.cause ≠ .noFault ∧ e.cause ≠ .valueOverflow := by
  obtain ⟨hc, _⟩ | ⟨_, hc | hc | hc⟩ := h
  · simp [hc]
  · simp [hc]
  · simp [hc]
  · simp [hc]

/-- Settles O22: the four outcomes have the four run states. -/
theorem stepHasOneOfFourOutcomes : Obligations.StepHasOneOfFourOutcomes := by
  intro s hs
  obtain ⟨t, h⟩ := step_answers_next s
  refine ⟨t, h, ?_⟩
  cases step_outcome hs h with
  | completes hf hrun h =>
    rw [hrun]
    exact ⟨_, hf, h.notHlt, h.hasInput, h.faultCause, h.faultInfo⟩
  | halts hf => exact ⟨rfl, _, _, _, hf⟩
  | pauses hstarved => exact ⟨rfl, hstarved⟩
  | faults _ hinfo => exact ⟨_, _, hinfo.cause_ne.1, rfl⟩

/-- Settles O24: a fault is taken on the state before the step, with a precise trap. -/
theorem faultsArePrecise : Obligations.FaultsArePrecise := by
  intro s t hs h ht
  cases step_outcome hs h with
  | completes _ hrun _ => cases hrun.symm.trans ht
  | halts _ => cases ht
  | pauses _ => cases ht
  | faults _ hinfo =>
    refine ⟨rfl, fun hc => ?_, fun hc => ?_, hinfo.cause_ne⟩
    · obtain ⟨hneg, _⟩ | ⟨hword, _⟩ := hinfo
      · simp [hneg] at hc
      · exact hword
    · obtain ⟨_, hneg⟩ | ⟨_, hother⟩ := hinfo
      · exact hneg
      · rw [State.enterFault_faultCause] at hc
        simp [hc] at hother

/-- Settles O23: completing and HLT move the pc, pausing and faulting do not. -/
theorem programCounterFollowsTheRule : Obligations.ProgramCounterFollowsTheRule := by
  refine ⟨rfl, fun s t i hs hf h => ?_, fun s t e hs hf h => ?_⟩
  · cases step_outcome hs h with
    | completes hf' hrun hc =>
      cases hf.symm.trans hf'
      exact ⟨fun _ => hc.pc, by simp [hrun]⟩
    | halts hf' =>
      cases hf.symm.trans hf'
      exact ⟨fun _ => rfl, by simp⟩
    | pauses _ => exact ⟨by simp, fun _ => rfl⟩
    | faults _ _ => exact ⟨by simp, fun _ => rfl⟩
  · cases h.symm.trans (step_of_fetch_error hs hf)
    rfl

end Sys2Proof.Machine
end

section
/-! PROOFS. The run-state machine of 60_exceptions.md R180: the four reasons at the pc exclude one another, and the
settlement of O48. -/

namespace Sys2Proof

open Machine

variable {s t u : State}

/-- The instruction at the pc is HLT. -/
def HaltsAtPc (s : State) : Prop := ∃ u1 u2 u3, fetch s = .ok (.hlt u1 u2 u3)

theorem StarvedAtPc.not_halts (h : StarvedAtPc s) : ¬ HaltsAtPc s := by
  obtain ⟨d, u2, u3, p, hf, _, _⟩ := h
  rintro ⟨_, _, _, hf'⟩
  cases hf.symm.trans hf'

theorem CompletesAtPc.not_halts (h : CompletesAtPc s) : ¬ HaltsAtPc s := by
  obtain ⟨i, hf, hop, _⟩ := h
  rintro ⟨_, _, _, hf'⟩
  cases hf.symm.trans hf'
  exact hop rfl

theorem CompletesAtPc.not_starved (h : CompletesAtPc s) : ¬ StarvedAtPc s := by
  obtain ⟨i, hf, _, _, hinput, _⟩ := h
  rintro ⟨_, _, _, _, hf', _, hq⟩
  cases hf.symm.trans hf'
  exact hinput rfl hq

/-- What faults at the pc is a decoded instruction's parameters or its target, if there is an instruction. -/
theorem FaultsAtPc.why {i : Instr} (h : FaultsAtPc s) (hf : fetch s = .ok i) :
    ¬ i.ResolvesIn s ∨ ∃ y, jumpTarget s i = some y ∧ y < 0 := by
  obtain ⟨e, he⟩ | ⟨j, hj, hwhy⟩ := h
  · cases hf.symm.trans he
  · cases hf.symm.trans hj
    exact hwhy

theorem CompletesAtPc.not_faults (h : CompletesAtPc s) : ¬ FaultsAtPc s := by
  obtain ⟨i, hf, _, hres, _, htarget⟩ := h
  intro hfault
  obtain hnres | ⟨y, hy, hneg⟩ := hfault.why hf
  · exact hnres hres
  · exact absurd (htarget y hy) (not_le.mpr hneg)

theorem StarvedAtPc.not_faults (h : StarvedAtPc s) : ¬ FaultsAtPc s := by
  obtain ⟨d, u2, u3, p, hf, hd, _⟩ := h
  intro hfault
  obtain hnres | ⟨y, hy, _⟩ := hfault.why hf
  · exact hnres ⟨by simp [Instr.reads], fun d' hd' => ⟨p, Option.some.inj hd' ▸ hd⟩⟩
  · cases hy

theorem HaltsAtPc.not_faults (h : HaltsAtPc s) : ¬ FaultsAtPc s := by
  obtain ⟨u1, u2, u3, hf⟩ := h
  intro hfault
  obtain hnres | ⟨y, hy, _⟩ := hfault.why hf
  · exact hnres ⟨by simp [Instr.reads], by simp [Instr.dest]⟩
  · cases hy

namespace Machine

/-- Each run state after a step has one reason at the pc. -/
theorem step_runState_iff (hs : s.stopped = false) (h : step s = .next t) :
    (t.runState = .running ↔ CompletesAtPc s) ∧ (t.runState = .halted ↔ HaltsAtPc s) ∧
    (t.runState = .paused ↔ StarvedAtPc s) ∧ (t.runState = .faulted ↔ FaultsAtPc s) := by
  cases step_outcome hs h with
  | completes hf hrun hc =>
    have hcompletes : CompletesAtPc s := ⟨_, hf, hc.notHlt, hc.resolves, hc.hasInput, hc.targetOk⟩
    rw [hrun]
    exact ⟨iff_of_true rfl hcompletes, iff_of_false nofun hcompletes.not_halts,
      iff_of_false nofun hcompletes.not_starved, iff_of_false nofun hcompletes.not_faults⟩
  | halts hf =>
    have hhalts : HaltsAtPc s := ⟨_, _, _, hf⟩
    exact ⟨iff_of_false nofun fun hc => hc.not_halts hhalts, iff_of_true rfl hhalts,
      iff_of_false nofun fun hstarved => hstarved.not_halts hhalts, iff_of_false nofun hhalts.not_faults⟩
  | pauses hstarved =>
    exact ⟨iff_of_false nofun fun hc => hc.not_starved hstarved, iff_of_false nofun hstarved.not_halts,
      iff_of_true rfl hstarved, iff_of_false nofun hstarved.not_faults⟩
  | faults hfault _ =>
    exact ⟨iff_of_false nofun fun hc => hc.not_faults hfault, iff_of_false nofun fun hh => hh.not_faults hfault,
      iff_of_false nofun fun hstarved => hstarved.not_faults hfault, iff_of_true rfl hfault⟩

/-- One STEP of a RUN: it goes on from a `Running` state and returns any other (R147). -/
theorem runReturns_iff_of_step (hs : s.stopped = false) (h : step s = .next u) :
    RunReturns s t ↔ (u.runState = .running ∧ RunReturns u t ∨ u.runState ≠ .running ∧ t = u) := by
  rw [runReturns_iff_stopsAfter hs, ← Nat.or_exists_add_one, stopsAfter_zero h]
  simp only [stopsAfter_succ h]
  by_cases hu : u.runState = .running
  · simp [hu, runReturns_iff_stopsAfter (not_stopped_iff.mpr (.inl hu))]
  · simp [hu]

/-- Settles O48: a step's run state by its reason, a RUN by its first step, and the ports, which have no way to the run
state. -/
theorem runStateMachineIsTheTable : Obligations.RunStateMachineIsTheTable := by
  refine ⟨fun s hs => ?_, fun s hp => ?_, fun s t hs => ?_,
    fun s hs => ⟨step_of_stopped hs, fun _ => runReturns_of_stopped hs⟩,
    fun p s => ⟨_, request_reset p s, rfl⟩, fun q s t r h hstep hreset => ?_⟩
  · obtain ⟨t, h⟩ := step_answers_next s
    exact ⟨t, h, step_runState_iff hs h⟩
  · have hs := not_stopped_iff.mpr (.inr hp)
    exact ⟨(step_resume hs).symm, fun _ => (runReturns_resume hs).symm⟩
  · obtain ⟨u, h⟩ := step_answers_next s
    rw [runReturns_iff_of_step hs h]
    simp [h]
  · obtain ⟨_, _, _, rfl⟩ := request_changes_memory_and_queues h hstep hreset
    rfl

end Machine

end Sys2Proof
end

section
/-! PROOFS. The machine of any width beside the one of width `inf` (92_eei_decisions.md D1, 40_execution_cycle.md R84),
and the settlement of O47. -/

namespace Sys2Proof.Machine

variable {s t u : State} {width : Option Nat} {i : Instr}

/-- The one thing a narrow machine does that this hardware does not: it faults on a result that does not fit (R84). -/
def Overflows (width : Option Nat) (s t : State) : Prop :=
  ∃ v, fits width v = false ∧ t = s.enterFault ⟨.valueOverflow, v⟩

theorem agrees_or_overflows_of_writesResult {mk : Operand → Operand → Target → Instr} {f : Int → Int → Int}
    {a b : Operand} {d : Target} {x y : Int} {p : Nat} (hall : WritesResultAtEveryWidth mk f)
    (ha : rdVal s a = .ok x) (hb : rdVal s b = .ok y) (hd : wrAddr s d = .ok p)
    (h : execAt width (mk a b d) s = .next t) : execAt none (mk a b d) s = .next t ∨ Overflows width s t := by
  obtain ⟨hfits, hoverflows⟩ := hall width a b d s x y p ha hb hd
  cases hfit : fits width (f x y) with
  | true =>
    cases (hfits hfit).symm.trans h
    exact .inl ((hall none a b d s x y p ha hb hd).1 rfl)
  | false =>
    cases (hoverflows hfit).symm.trans h
    exact .inr ⟨_, hfit, rfl⟩

theorem execArbAt_agrees_or_overflows {a : Operand} (h : execArbAt width a s = .next t) :
    execArbAt none a s = .next t ∨ Overflows width s t := by
  obtain ⟨x, hx, _, rfl⟩ | ⟨x, _, hfit, rfl⟩ | ⟨e, he, rfl⟩ := execArbAt_cases h
  · exact .inl (execArbAt_completes hx rfl)
  · exact .inr ⟨_, hfit, rfl⟩
  · exact .inl (execArbAt_faults he)

/-- Only ADD, MUL and ARB know the width, and only after all parameters resolved. -/
theorem execAt_agrees_or_overflows (h : execAt width i s = .next t) :
    execAt none i s = .next t ∨ Overflows width s t := by
  cases htrap : firstTrap s i with
  | some e =>
    rw [execAt_of_firstTrap width htrap] at h
    exact .inl ((execAt_of_firstTrap none htrap).trans h)
  | none =>
    obtain ⟨hreads, hdest⟩ := firstTrap_eq_none_iff.mp htrap
    cases i with
    | add a b d =>
      obtain ⟨x, hx⟩ := hreads a (by simp [Instr.reads])
      obtain ⟨y, hy⟩ := hreads b (by simp [Instr.reads])
      obtain ⟨p, hp⟩ := hdest d rfl
      exact agrees_or_overflows_of_writesResult (writesResultAtEveryWidth_of_storeBinary (mk := .add)
        (f := fun x y => x + y) fun _ _ _ _ _ => rfl) hx hy hp h
    | mul a b d =>
      obtain ⟨x, hx⟩ := hreads a (by simp [Instr.reads])
      obtain ⟨y, hy⟩ := hreads b (by simp [Instr.reads])
      obtain ⟨p, hp⟩ := hdest d rfl
      exact agrees_or_overflows_of_writesResult (writesResultAtEveryWidth_of_storeBinary (mk := .mul)
        (f := fun x y => x * y) fun _ _ _ _ _ => rfl) hx hy hp h
    | arb a u2 u3 => exact execArbAt_agrees_or_overflows h
    | inp | out | jt | jf | lt | eq | hlt => exact .inl h

theorem stepAt_agrees_or_overflows (h : stepAt width s = .next t) : step s = .next t ∨ Overflows width s t := by
  obtain ⟨hs, rfl⟩ | ⟨i, hs, hf, he⟩ | ⟨e, hs, hf, rfl⟩ := stepAt_cases h
  · exact .inl (step_of_stopped hs)
  · obtain he | hover := execAt_agrees_or_overflows he
    · exact .inl ((step_of_fetch_ok hs hf).trans ((execAt_none i _).symm.trans he))
    · exact .inr hover
  · exact .inl (step_of_fetch_error hs hf)

theorem coreAt_run_succ (h : stepAt width s = .next u) (n : Nat) :
    (coreAt width).run (n + 1) s = (coreAt width).run n u := by
  have hc : (coreAt width).step s = .next u := h
  simp only [Host.Core.run, hc]

theorem stepAt_of_stopped (hs : s.stopped = true) : stepAt width s = .next s := by
  simp [stepAt, stepWith, hs]

/-- A stopped core is where it was after any number of steps. -/
theorem coreAt_run_of_stopped (hs : s.stopped = true) (n : Nat) : (coreAt width).run n s = .next s := by
  induction n with
  | zero => rfl
  | succ n ih => rw [coreAt_run_succ (stepAt_of_stopped hs), ih]

/-- A run that overflowed would still show it at its end, since the fault is final. -/
theorem coreAt_run_agrees {n : Nat} (h : (coreAt width).run n s = .next t) (ht : t.faultCause ≠ .valueOverflow) :
    core.run n s = .next t := by
  induction n generalizing s with
  | zero => exact h
  | succ n ih =>
    obtain ⟨u, hu⟩ := stepAt_answers_next width s
    rw [coreAt_run_succ hu] at h
    obtain hstep | ⟨v, _, rfl⟩ := stepAt_agrees_or_overflows hu
    · rw [core_run_succ hstep, ih h]
    · cases (coreAt_run_of_stopped rfl n).symm.trans h
      exact absurd rfl ht

/-- At `inf` no step raises `ValueOverflow`. -/
theorem faultCause_of_step (hs : s.stopped = false) (h : step s = .next t)
    (hc : s.faultCause ≠ .valueOverflow) : t.faultCause ≠ .valueOverflow := by
  cases step_outcome hs h with
  | completes _ _ h => rwa [h.faultCause]
  | halts _ => exact hc
  | pauses _ => exact hc
  | faults _ hinfo => exact hinfo.cause_ne.2

/-- Settles O47: a step agrees with this hardware's or overflows, with a result that does not fit. -/
theorem narrowMachineAgreesUntilItOverflows : Obligations.NarrowMachineAgreesUntilItOverflows := by
  refine ⟨fun _ _ _ _ => coreAt_run_agrees, fun s => (stepAt_none s).symm, fun width s t hs h ht hc => ?_⟩
  obtain hstep | ⟨v, hfit, rfl⟩ := stepAt_agrees_or_overflows h
  · exact absurd ht (faultCause_of_step hs hstep hc)
  · exact hfit

end Sys2Proof.Machine
end

section
/-! PROOFS. The pseudocode of 40_execution_cycle.md R70 on raw digits against the decoded instruction, and the settlement
of O10. -/

namespace Sys2Proof

open Machine

namespace Reference

variable {s : State} {width : Option Nat} {i : Instr} {op : Op} {m m1 m2 m3 : Mode} {o : Nat → Int} {n : Int}

/-- The parameters that R70 resolves before it executes, as (mode digit, operand word). -/
def resolved (op d1 d2 d3 : Int) (o : Nat → Int) : List (Int × Int) :=
  [(d1, o 1), (d2, o 2), (d3, o 3)].take (parameters op)

/-- The part of R70 after the decode checks. -/
def executeDecoded (width : Option Nat) (s : State) (op d1 d2 d3 : Int) (o : Nat → Int) : State :=
  match firstNegative s (resolved op d1 d2 d3 o) with
  | some a => raised s .negativeAddress a
  | none =>
    executed width s op (operandValue s d1 (o 1)) (operandValue s d2 (o 2)) (address s d1 (o 1)).toNat
      (address s d3 (o 3)).toNat

/-- The decode checks of R70, with those of R58's table that share a cause put together. -/
theorem coreStep_eq_checks {w : Int} (hw : s.mem.read s.pc = w) : coreStep width s =
    if w < 0 then raised s .invalidOpcode w
    else if w % 100 ∉ legalOpcodes then raised s .invalidOpcode w
    else if BadDigits w then raised s .invalidMode w
    else if ImmediateDest (w % 100) (digit 2 w) (digit 4 w) then raised s .immediateWriteTarget w
    else executeDecoded width s (w % 100) (digit 2 w) (digit 3 w) (digit 4 w) fun k => s.mem.read (s.pc + k) := by
  subst hw
  simp only [BadDigits, ImmediateDest, ite_or]
  simp only [coreStep, ite_or]
  rfl

theorem coreStep_of_illegalClass {w : Int} {e : DecodeError} (hw : s.mem.read s.pc = w)
    (h : illegalClass w = some e) : coreStep width s = raised s (decodeCause e) w := by
  rw [coreStep_eq_checks hw]
  unfold illegalClass at h
  split_ifs at h ⊢ <;> cases h <;> rfl

theorem coreStep_of_legal {w : Int} (hw : s.mem.read s.pc = w) (h : illegalClass w = none) : coreStep width s =
    executeDecoded width s (w % 100) (digit 2 w) (digit 3 w) (digit 4 w) fun k => s.mem.read (s.pc + k) := by
  rw [coreStep_eq_checks hw]
  unfold illegalClass at h
  split_ifs at h ⊢
  rfl

/-- The list is searched from the front, one parameter after another (R81). -/
theorem firstNegative_eq_findSome (s : State) (l : List (Int × Int)) :
    firstNegative s l = l.findSome? fun c => firstNegative s [c] := by
  induction l with
  | nil => rfl
  | cons c l ih =>
    obtain ⟨m, n⟩ := c
    rw [List.findSome?_cons, ← ih]
    simp only [firstNegative]
    split <;> rfl

/-- A read parameter resolves to its value, or traps with its negative effective address (R76, R77). -/
theorem rdVal_eq (s : State) (a : Operand) :
    rdVal s a =
      match firstNegative s [(a.mode.digit, a.word)] with
      | some n => .error ⟨.negativeAddress, n⟩
      | none => .ok (operandValue s a.mode.digit a.word) := by
  cases a with
  | immediate n => rfl
  | position n =>
    obtain h | h := lt_or_ge n 0
    · simp [rdVal_position_of_neg h, firstNegative, address, Operand.mode, Operand.word, Mode.digit, h]
    · simp [rdVal_position_of_nonneg h, firstNegative, address, operandValue, Operand.mode, Operand.word, Mode.digit,
        not_lt.mpr h]
  | relative n =>
    obtain h | h := lt_or_ge (s.rb + n) 0
    · simp [rdVal_relative_of_neg h, firstNegative, address, Operand.mode, Operand.word, Mode.digit, h]
    · simp [rdVal_relative_of_nonneg h, firstNegative, address, operandValue, Operand.mode, Operand.word, Mode.digit,
        not_lt.mpr h]

/-- The same for a write parameter and its address (R78). -/
theorem wrAddr_eq (s : State) (d : Target) :
    wrAddr s d =
      match firstNegative s [(d.mode.digit, d.word)] with
      | some n => .error ⟨.negativeAddress, n⟩
      | none => .ok (address s d.mode.digit d.word).toNat := by
  have heff : wrAddr s d = effAddr (address s d.mode.digit d.word) := by cases d <;> rfl
  have hmode : d.mode.digit ≠ 1 := by cases d <;> simp [Target.mode, Mode.digit]
  rw [heff]
  obtain h | h := lt_or_ge (address s d.mode.digit d.word) 0
  · simp [effAddr_of_neg h, firstNegative, hmode, h]
  · simp [effAddr_of_nonneg h, firstNegative, not_lt.mpr h]

theorem trapOf_rdVal (s : State) (a : Operand) :
    trapOf (rdVal s a) = (firstNegative s [(a.mode.digit, a.word)]).map (Trap.mk .negativeAddress) := by
  rw [rdVal_eq]
  cases firstNegative s [(a.mode.digit, a.word)] <;> rfl

theorem trapOf_wrAddr (s : State) (d : Target) :
    trapOf (wrAddr s d) = (firstNegative s [(d.mode.digit, d.word)]).map (Trap.mk .negativeAddress) := by
  rw [wrAddr_eq]
  cases firstNegative s [(d.mode.digit, d.word)] <;> rfl

/-- The parameters of an instruction as (mode digit, operand word), in parameter order. -/
def parametersOf (i : Instr) : List (Int × Int) :=
  i.reads.map (fun a => (a.mode.digit, a.word)) ++ (i.dest.map fun d => (d.mode.digit, d.word)).toList

/-- The first parameter with a negative effective address is the first that traps. -/
theorem firstTrap_eq (s : State) (i : Instr) :
    firstTrap s i = (firstNegative s (parametersOf i)).map (Trap.mk .negativeAddress) := by
  rw [firstNegative_eq_findSome, parametersOf, List.findSome?_append, List.findSome?_map, firstTrap]
  cases hd : i.dest with
  | none => simp [trapOf_rdVal, List.map_findSome?, Function.comp_def]
  | some d => simp [trapOf_rdVal, trapOf_wrAddr, List.map_findSome?, Option.map_or, Function.comp_def]

/-- With no negative effective address every read parameter has its value. -/
theorem rdVal_of_firstNegative {a : Operand} (h : firstNegative s (parametersOf i) = none) (ha : a ∈ i.reads) :
    rdVal s a = .ok (operandValue s a.mode.digit a.word) := by
  rw [firstNegative_eq_findSome, List.findSome?_eq_none_iff] at h
  rw [rdVal_eq, h _ (List.mem_append_left _ (List.mem_map_of_mem ha))]

/-- And the write parameter has its address. -/
theorem wrAddr_of_firstNegative {d : Target} (h : firstNegative s (parametersOf i) = none) (hd : i.dest = some d) :
    wrAddr s d = .ok (address s d.mode.digit d.word).toNat := by
  rw [firstNegative_eq_findSome, List.findSome?_eq_none_iff] at h
  rw [wrAddr_eq, h _ (List.mem_append_right _ (by simp [hd]))]

section Execute

variable {a b target : Operand} {d : Target} {x y : Int} {p : Nat} {f : Int → Int → Int} {condition : Int → Bool}

/-- ADD and MUL (R84, R90, R91). -/
theorem storeBinary_checked (ha : rdVal s a = .ok x) (hb : rdVal s b = .ok y) (hd : wrAddr s d = .ok p) :
    storeBinary (fun x y => checkFits width (f x y)) a b d s =
      .next (if fits width (f x y) then stored s p (f x y) else raised s .valueOverflow (f x y)) := by
  split_ifs with hfit
  · exact storeBinary_completes ha hb hd (checkFits_ok_iff.mpr ⟨hfit, rfl⟩)
  · have hcheck := checkFits_error_iff.mpr ⟨Bool.eq_false_iff.mpr hfit, rfl⟩
    exact storeBinary_faults_result (compute := fun x y => checkFits width (f x y)) ha hb hd hcheck

theorem execArbAt_checked (ha : rdVal s a = .ok x) :
    execArbAt width a s =
      .next (if fits width (s.rb + x) then { s with rb := s.rb + x, pc := s.pc + 2 }
        else raised s .valueOverflow (s.rb + x)) := by
  split_ifs with hfit
  · exact execArbAt_completes ha hfit
  · exact execArbAt_overflows ha (Bool.eq_false_iff.mpr hfit)

/-- JT and JF (R110 to R112). -/
theorem jumpWhen_resolved {P : Int → Prop} [DecidablePred P] (hP : ∀ {x}, condition x = true ↔ P x)
    (ha : rdVal s a = .ok x) (ht : rdVal s target = .ok y) :
    jumpWhen condition a target s =
      .next (if P x then (if y < 0 then raised s .negativeAddress y else { s with pc := y.toNat })
        else { s with pc := s.pc + 3 }) := by
  split_ifs with hc hy
  · exact jumpWhen_taken_of_neg ha ht (hP.mpr hc) hy
  · exact jumpWhen_taken_of_nonneg ha ht (hP.mpr hc) (not_lt.mp hy)
  · exact jumpWhen_not_taken ha ht (Bool.eq_false_iff.mpr (mt hP.mp hc))

theorem execIn_resolved (u2 u3 : Mode) (hd : wrAddr s d = .ok p) :
    execIn d u2 u3 s =
      .next (match s.inq with
        | [] => { s with runState := .paused }
        | v :: rest => { s with inq := rest, mem := s.mem.write p v, pc := s.pc + 2 }) := by
  split
  next hq => exact execIn_pauses u2 u3 hd hq
  next hq => exact execIn_completes u2 u3 hd hq

end Execute

theorem one_word {x : Int} (h : [x] = (List.range 1).map fun k => o (k + 1)) : x = o 1 := by
  simpa using h

theorem two_words {x y : Int} (h : [x, y] = (List.range 2).map fun k => o (k + 1)) : x = o 1 ∧ y = o 2 := by
  simpa [List.range_succ] using h

theorem three_words {x y z : Int} (h : [x, y, z] = (List.range 3).map fun k => o (k + 1)) :
    x = o 1 ∧ y = o 2 ∧ z = o 3 := by
  simpa [List.range_succ] using h

section Parameters

variable (hwords : i.operandWords = (List.range (i.op.length - 1)).map fun k => o (k + 1))

include hwords

/-- As many of the three (digit, word) pairs are resolved as the operation has parameters (R56). -/
theorem resolved_eq : resolved i.op.code i.mode1.digit i.mode2.digit i.mode3.digit o = parametersOf i := by
  cases i with
  | add a b d | mul a b d | lt a b d | eq a b d =>
    obtain ⟨h1, h2, h3⟩ := three_words hwords
    simp [resolved, parametersOf, parameters, Instr.op, Op.code, Instr.reads, Instr.dest, Instr.mode1, Instr.mode2,
      Instr.mode3, h1, h2, h3]
  | jt a b u3 | jf a b u3 =>
    obtain ⟨h1, h2⟩ := two_words hwords
    simp [resolved, parametersOf, parameters, Instr.op, Op.code, Instr.reads, Instr.dest, Instr.mode1, Instr.mode2,
      h1, h2]
  | inp d u2 u3 =>
    have h1 := one_word hwords
    simp [resolved, parametersOf, parameters, Instr.op, Op.code, Instr.reads, Instr.dest, Instr.mode1, h1]
  | out a u2 u3 | arb a u2 u3 =>
    have h1 := one_word hwords
    simp [resolved, parametersOf, parameters, Instr.op, Op.code, Instr.reads, Instr.dest, Instr.mode1, h1]
  | hlt u1 u2 u3 => rfl

/-- R83: each opcode's branch is the execute stage of its instruction. -/
theorem execAt_of_firstNegative_none (h : firstNegative s (parametersOf i) = none) :
    execAt width i s =
      .next (executed width s i.op.code (operandValue s i.mode1.digit (o 1)) (operandValue s i.mode2.digit (o 2))
        (address s i.mode1.digit (o 1)).toNat (address s i.mode3.digit (o 3)).toNat) := by
  have hread : ∀ a ∈ i.reads, rdVal s a = .ok (operandValue s a.mode.digit a.word) :=
    fun a ha => rdVal_of_firstNegative h ha
  have hdest : ∀ d, i.dest = some d → wrAddr s d = .ok (address s d.mode.digit d.word).toNat :=
    fun d hd => wrAddr_of_firstNegative h hd
  cases i with
  | add a b d =>
    obtain ⟨h1, h2, h3⟩ := three_words hwords
    rw [← h1, ← h2, ← h3]
    exact storeBinary_checked (f := fun x y => x + y) (hread a (.head _)) (hread b (.tail _ (.head _))) (hdest d rfl)
  | mul a b d =>
    obtain ⟨h1, h2, h3⟩ := three_words hwords
    rw [← h1, ← h2, ← h3]
    exact storeBinary_checked (f := fun x y => x * y) (hread a (.head _)) (hread b (.tail _ (.head _))) (hdest d rfl)
  | inp d u2 u3 =>
    rw [← one_word hwords]
    exact execIn_resolved u2 u3 (hdest d rfl)
  | out a u2 u3 =>
    rw [← one_word hwords]
    exact execOut_completes u2 u3 (hread a (.head _))
  | jt a b u3 =>
    obtain ⟨h1, h2⟩ := two_words hwords
    rw [← h1, ← h2]
    exact jumpWhen_resolved (P := (· ≠ 0)) isNonzero_iff (hread a (.head _)) (hread b (.tail _ (.head _)))
  | jf a b u3 =>
    obtain ⟨h1, h2⟩ := two_words hwords
    rw [← h1, ← h2]
    exact jumpWhen_resolved (P := (· = 0)) isZero_iff (hread a (.head _)) (hread b (.tail _ (.head _)))
  | lt a b d | eq a b d =>
    obtain ⟨h1, h2, h3⟩ := three_words hwords
    rw [← h1, ← h2, ← h3]
    exact storeBinary_completes (hread a (.head _)) (hread b (.tail _ (.head _))) (hdest d rfl) rfl
  | arb a u2 u3 =>
    rw [← one_word hwords]
    exact execArbAt_checked (hread a (.head _))
  | hlt u1 u2 u3 => rfl

theorem execAt_eq_executeDecoded :
    execAt width i s =
      .next (executeDecoded width s i.op.code i.mode1.digit i.mode2.digit i.mode3.digit o) := by
  unfold executeDecoded
  rw [resolved_eq hwords]
  cases h : firstNegative s (parametersOf i) with
  | some n => exact execAt_of_firstTrap width (by rw [firstTrap_eq, h]; rfl)
  | none => exact execAt_of_firstNegative_none hwords h

end Parameters

theorem coreStepWith_eq (width : Option Nat) (s : State) :
    coreStepWith (execAt width) s = .next (coreStep width s) := by
  unfold coreStepWith
  cases hf : fetch s with
  | ok i =>
    have hd := decode_of_fetch hf
    obtain ⟨hw, hwords⟩ := decode_ok hd
    obtain ⟨-, -, hop, h1, h2, h3⟩ := Laws.EncodedFields.fields i
    rw [coreStep_of_legal hw (hw ▸ illegalClass_of_decode hd), hop, h1, h2, h3]
    exact execAt_eq_executeDecoded hwords
  | error e =>
    unfold fetch at hf
    split at hf
    next => cases hf
    next d hd =>
      cases hf
      rw [coreStep_of_illegalClass rfl (decode_error_iff.mp hd)]
      rfl

theorem stepAt_eq (width : Option Nat) (s : State) : stepAt width s = .next (step width s) := by
  unfold stepAt stepWith step
  simp only [← stopped_iff]
  split_ifs with hs
  · rfl
  · exact coreStepWith_eq width s.resume

/-- Settles O10: R70's checks are the decoder's, its parameters the instruction's, and its branches the execute stages. -/
theorem stepIsThePseudocode : Obligations.StepIsThePseudocode :=
  ⟨fun s => (stepAt_none s).symm.trans (stepAt_eq none s), stepAt_eq⟩

end Reference

end Sys2Proof
end
